-- ==== Sys2Proof/Word.lean ====
section
/-!
DEFINITION. The value types of the engine (00_scope.md R12, R13): bytes, 32-bit words, the 4-byte words of the
key schedule and the 16-byte blocks of the cipher.
-/

namespace Sys2Proof

/-- A byte: 8 bits, bit 7 the most significant (R12). -/
abbrev Byte := BitVec 8

/-- A word of the hash engine: 32 bits, unsigned, sums modulo 2^32 (R12, R100). -/
abbrev Word := BitVec 32

/-- A 4-byte word of the key schedule, byte 0 first, and likewise one column of the AES State, row 0 first
(R25, R43 (b), (c)). It is never read as a 32-bit number (R43). -/
abbrev Column := Vector Byte 4

/-- A 16-byte block in stream order; byte `k` is row `k mod 4`, column `k div 4` of the AES State (R32, R43 (a)). -/
abbrev Block := Vector Byte 16

end Sys2Proof
end

