-- ==== Sys2Proof/Config.lean ====
section
/-!
DEFINITION. What is fixed for the machine (00_scope.md R9, R10), and the free values: what the spec leaves
unspecified and the model gives no value for.
-/

namespace Sys2Proof

/-- `NBLOCKS_W`, the width of the count of whole hash blocks (R10, D8). -/
abbrev Config.nblocksW : Nat := 55

/-- `LEN_W`, the width of the payload length field of a command header (R10, D2). -/
abbrev Config.lenW : Nat := 16

/-- The largest value of `NBLOCKS` (R33 (b), R108). -/
abbrev Config.maxBlocks : Nat := 2 ^ Config.nblocksW - 1

/-- `RKS_WORDS`, the capacity of the round-key store in words (R10). -/
abbrev Config.rksWords : Nat := 60

/-- `NR = NK + 6`, the number of cipher rounds for a key of `nk` words (R9, R26). -/
def Config.rounds (nk : Nat) : Nat := nk + 6

/-- `Nb · (NR + 1) = 4 · (NK + 7)`, the number of schedule words for a key of `nk` words (R9, R140). -/
def Config.scheduleWords (nk : Nat) : Nat := 4 * (nk + 7)

/-! The registers' contents after a reset event during a run: "Unspecified" (R38, R251, U8, U21). Each is a free
value, drawn by the counter `State.freeIdx`; no body, so nothing can be proved of it (assumption log 5, 6). -/

/-- Free contents of `H[0..7]`. DESIGN CHOICE (log 5): safe, any value is allowed. -/
opaque Config.freeChain : Nat → Vector Word 8

/-- Free contents of `BUF[0..63]`. DESIGN CHOICE (log 5): safe, any value is allowed. -/
opaque Config.freeBuf : Nat → Vector Byte 64

/-- Free contents of `BUFLEN`. DESIGN CHOICE (log 5): safe, any value is allowed. -/
opaque Config.freeBufLen : Nat → BitVec 6

/-- Free contents of `NBLOCKS`. DESIGN CHOICE (log 5): safe, any value is allowed. -/
opaque Config.freeNBlocks : Nat → BitVec Config.nblocksW

/-- Free contents of `RKS[0..59]`. DESIGN CHOICE (log 5): safe, any value is allowed. -/
opaque Config.freeSchedule : Nat → Vector Column Config.rksWords

/-- Free contents of `NK`. DESIGN CHOICE (log 5): safe, any value is allowed. -/
opaque Config.freeNk : Nat → BitVec 4

end Sys2Proof
end

