-- ==== Sys2Proof/Syntax.lean ====
section
/-!
DEFINITION. The sixteen commands (30_encoding.md R75), one constructor per row of spec/opcode_table.json, with the
operands of R74: the payload is an operand of its command (R70: a command is a header FOLLOWED BY a payload), and
the `LEN` field is the payload's length. In formats N, S and B the field `ARG` is 0 and is no operand (R73).
-/

namespace Sys2Proof

/-- A command of the engine. -/
inductive Instr where
  /-- HINIT (R104): start a message. -/
  | hinit
  /-- HWRITE (R106): absorb the chunk `data = In[0..LEN]`. -/
  | hwrite (data : List Byte)
  /-- HFINAL (R109): pad and finish the message. -/
  | hfinal
  /-- HREAD (R111): emit the digest. -/
  | hread
  /-- KDF (R131): `L = ARG`, the target length in bytes; the password is `In[0..LEN]`. -/
  | kdf (arg : BitVec 8) (password : List Byte)
  /-- KEXP (R141): build the schedule of the KeyMaterial `In[0..LEN]`. -/
  | kexp (material : List Byte)
  /-- KSREAD (R146): emit the schedule. -/
  | ksread
  /-- SUBBYTES (R166). -/
  | subbytes (block : Block)
  /-- INVSUBBYTES (R167). -/
  | invsubbytes (block : Block)
  /-- SHIFTROWS (R168). -/
  | shiftrows (block : Block)
  /-- INVSHIFTROWS (R169). -/
  | invshiftrows (block : Block)
  /-- MIXCOLUMNS (R171). -/
  | mixcolumns (block : Block)
  /-- INVMIXCOLUMNS (R172). -/
  | invmixcolumns (block : Block)
  /-- ADDROUNDKEY (R174): `r = ARG`, the round number. -/
  | addroundkey (arg : BitVec 8) (block : Block)
  /-- ENC (R195): encrypt the buffer `In[0..LEN]`. -/
  | enc (buffer : List Byte)
  /-- DEC (R196): decrypt the buffer `In[0..LEN]`. -/
  | dec (buffer : List Byte)
  deriving DecidableEq, Repr

end Sys2Proof
end

