-- ==== Sys2Proof/WellFormed.lean ====
section
/-!
DEFINITION. Which terms of `Instr` a header can stand for: the payload's length fits the 16-bit field `LEN`
(30_encoding.md R71: 0 to 65535). The block commands carry exactly 16 bytes by their type (R73, formats B and R).
-/

namespace Sys2Proof

/-- The payload fits the header's `LEN` field (R71). -/
abbrev fitsLen (payload : List Byte) : Prop := payload.length < 2 ^ Config.lenW

/-- The commands that an encoding exists for (R70, R71, R73). -/
def Instr.wellFormed : Instr → Bool
  | .hwrite data => decide (fitsLen data)
  | .kdf _ password => decide (fitsLen password)
  | .kexp material => decide (fitsLen material)
  | .enc buffer => decide (fitsLen buffer)
  | .dec buffer => decide (fitsLen buffer)
  | .hinit => true
  | .hfinal => true
  | .hread => true
  | .ksread => true
  | .subbytes _ => true
  | .invsubbytes _ => true
  | .shiftrows _ => true
  | .invshiftrows _ => true
  | .mixcolumns _ => true
  | .invmixcolumns _ => true
  | .addroundkey _ _ => true

end Sys2Proof
end

