-- ==== Sys2Proof/Decode.lean ====
section
/-!
DEFINITION. Decoding and encoding (30_encoding.md). A command is read from a list of bytes: four header bytes, most
significant first (R45, R71), then `LEN` payload bytes (R70). The decoder is total: a whole command is one of the
sixteen or illegal (R77), by name; a list too short for the command it starts is incomplete.
-/

namespace Sys2Proof

/-! ## Byte order -/

/-- `be32(w)`: the 4 bytes of a word, most significant first (R14). -/
def be32 (w : BitVec 32) : List Byte :=
  [w.extractLsb' 24 8, w.extractLsb' 16 8, w.extractLsb' 8 8, w.extractLsb' 0 8]

/-! ## Formats and opcodes -/

/-- The five formats (R73): which of `ARG` and `LEN` are free. -/
inductive Format where
  /-- no operand: `ARG` 0, `LEN` 0 -/
  | n
  /-- stream: `ARG` 0, `LEN` free -/
  | s
  /-- argument and stream: both free -/
  | a
  /-- one block: `ARG` 0, `LEN` 16 -/
  | b
  /-- round and block: `ARG` free, `LEN` 16 -/
  | r
  deriving DecidableEq, Repr

/-- The sixteen mnemonics (R75). -/
inductive Op where
  | hinit | hwrite | hfinal | hread | kdf | kexp | ksread
  | subbytes | invsubbytes | shiftrows | invshiftrows | mixcolumns | invmixcolumns | addroundkey
  | enc | dec
  deriving DecidableEq, Repr

/-- All mnemonics, in the table's order (R75). -/
def Op.all : List Op :=
  [.hinit, .hwrite, .hfinal, .hread, .kdf, .kexp, .ksread, .subbytes, .invsubbytes, .shiftrows, .invshiftrows,
   .mixcolumns, .invmixcolumns, .addroundkey, .enc, .dec]

/-- The column `OPC` of the opcode map (R75). -/
def Op.code : Op → BitVec 8
  | .hinit => 0x01
  | .hwrite => 0x02
  | .hfinal => 0x03
  | .hread => 0x04
  | .kdf => 0x08
  | .kexp => 0x10
  | .ksread => 0x11
  | .subbytes => 0x20
  | .invsubbytes => 0x21
  | .shiftrows => 0x22
  | .invshiftrows => 0x23
  | .mixcolumns => 0x24
  | .invmixcolumns => 0x25
  | .addroundkey => 0x26
  | .enc => 0x30
  | .dec => 0x31

/-- The column `format` of the opcode map (R73, R75). -/
def Op.format : Op → Format
  | .hinit => .n
  | .hwrite => .s
  | .hfinal => .n
  | .hread => .n
  | .kdf => .a
  | .kexp => .s
  | .ksread => .n
  | .subbytes => .b
  | .invsubbytes => .b
  | .shiftrows => .b
  | .invshiftrows => .b
  | .mixcolumns => .b
  | .invmixcolumns => .b
  | .addroundkey => .r
  | .enc => .s
  | .dec => .s

/-- The columns `match` and `mask` of the opcode map (R75), as the table prints them. -/
def Op.row : Op → BitVec 32 × BitVec 32
  | .hinit => (0x01000000, 0xFFFFFFFF)
  | .hwrite => (0x02000000, 0xFFFF0000)
  | .hfinal => (0x03000000, 0xFFFFFFFF)
  | .hread => (0x04000000, 0xFFFFFFFF)
  | .kdf => (0x08000000, 0xFF000000)
  | .kexp => (0x10000000, 0xFFFF0000)
  | .ksread => (0x11000000, 0xFFFFFFFF)
  | .subbytes => (0x20000010, 0xFFFFFFFF)
  | .invsubbytes => (0x21000010, 0xFFFFFFFF)
  | .shiftrows => (0x22000010, 0xFFFFFFFF)
  | .invshiftrows => (0x23000010, 0xFFFFFFFF)
  | .mixcolumns => (0x24000010, 0xFFFFFFFF)
  | .invmixcolumns => (0x25000010, 0xFFFFFFFF)
  | .addroundkey => (0x26000010, 0xFF00FFFF)
  | .enc => (0x30000000, 0xFFFF0000)
  | .dec => (0x31000000, 0xFFFF0000)

/-- A header `h` is the command of a row when `h & mask == match` (R75). -/
def Op.matchesHeader (op : Op) (h : BitVec 32) : Bool := h &&& op.row.2 == op.row.1

/-- The mnemonic of an opcode; `none` for an unassigned one (R77). -/
def Op.ofCode (opc : BitVec 8) : Option Op := Op.all.find? fun op => op.code == opc

/-! ## The decoder -/

/-- Why a header is illegal (R77, R222). The engine answers `IllegalCommand` to each of them. -/
inductive DecodeError where
  /-- the value of `OPC` is not one of the sixteen -/
  | unassignedOpcode
  /-- a format N, S or B command with `ARG` not 0 -/
  | argNotZero
  /-- a format N command with `LEN` not 0 -/
  | lenNotZero
  /-- a format B or R command with `LEN` not 16 -/
  | lenNotSixteen
  deriving DecidableEq, Repr

/-- What the front of the command stream holds. -/
inductive Decoded where
  /-- a whole legal command, and the bytes after it -/
  | command (i : Instr) (rest : List Byte)
  /-- a whole command with an illegal header, its payload taken with it (R77), and the bytes after it -/
  | illegal (e : DecodeError) (rest : List Byte)
  /-- fewer bytes than the command they start -/
  | incomplete
  deriving DecidableEq, Repr

/-- Does the format allow these fields (R73)? `none`: it does. -/
def Format.violation (f : Format) (arg : BitVec 8) (len : Nat) : Option DecodeError :=
  match f with
  | .n => if arg ≠ 0 then some .argNotZero else if len ≠ 0 then some .lenNotZero else none
  | .s => if arg ≠ 0 then some .argNotZero else none
  | .a => none
  | .b => if arg ≠ 0 then some .argNotZero else if len ≠ 16 then some .lenNotSixteen else none
  | .r => if len ≠ 16 then some .lenNotSixteen else none

/-- The first 16 bytes of a payload as a block; formats B and R carry exactly 16 (R73, R74). -/
def blockOfBytes (bytes : List Byte) : Block := Vector.ofFn fun k => bytes.getD k.val 0

/-- Operand assembly (R74). -/
def Op.assemble (op : Op) (arg : BitVec 8) (payload : List Byte) : Instr :=
  match op with
  | .hinit => .hinit
  | .hwrite => .hwrite payload
  | .hfinal => .hfinal
  | .hread => .hread
  | .kdf => .kdf arg payload
  | .kexp => .kexp payload
  | .ksread => .ksread
  | .subbytes => .subbytes (blockOfBytes payload)
  | .invsubbytes => .invsubbytes (blockOfBytes payload)
  | .shiftrows => .shiftrows (blockOfBytes payload)
  | .invshiftrows => .invshiftrows (blockOfBytes payload)
  | .mixcolumns => .mixcolumns (blockOfBytes payload)
  | .invmixcolumns => .invmixcolumns (blockOfBytes payload)
  | .addroundkey => .addroundkey arg (blockOfBytes payload)
  | .enc => .enc payload
  | .dec => .dec payload

/-- The command of one header and its payload (R73 to R75, R77). -/
def decodeCommand (opc arg : BitVec 8) (payload rest : List Byte) : Decoded :=
  match Op.ofCode opc with
  | none => .illegal .unassignedOpcode rest
  | some op =>
    match op.format.violation arg payload.length with
    | some e => .illegal e rest
    | none => .command (op.assemble arg payload) rest

/-- Read one command from the front of a byte stream (R45, R70, R71): `OPC`, `ARG`, `LEN[15:8]`, `LEN[7:0]`, payload. -/
def decode : List Byte → Decoded
  | opc :: arg :: lenHi :: lenLo :: tail =>
    let len := (lenHi ++ lenLo).toNat
    if tail.length < len then .incomplete
    else decodeCommand opc arg (tail.take len) (tail.drop len)
  | _ => .incomplete

/-! ## The encoder -/

/-- The mnemonic of a command. -/
def Instr.op : Instr → Op
  | .hinit => .hinit
  | .hwrite _ => .hwrite
  | .hfinal => .hfinal
  | .hread => .hread
  | .kdf _ _ => .kdf
  | .kexp _ => .kexp
  | .ksread => .ksread
  | .subbytes _ => .subbytes
  | .invsubbytes _ => .invsubbytes
  | .shiftrows _ => .shiftrows
  | .invshiftrows _ => .invshiftrows
  | .mixcolumns _ => .mixcolumns
  | .invmixcolumns _ => .invmixcolumns
  | .addroundkey _ _ => .addroundkey
  | .enc _ => .enc
  | .dec _ => .dec

/-- The header field `ARG` of a command: zero unless its format has an argument (R71, R73). -/
def Instr.argField : Instr → BitVec 8
  | .kdf arg _ => arg
  | .addroundkey arg _ => arg
  | .hinit => 0
  | .hwrite _ => 0
  | .hfinal => 0
  | .hread => 0
  | .kexp _ => 0
  | .ksread => 0
  | .subbytes _ => 0
  | .invsubbytes _ => 0
  | .shiftrows _ => 0
  | .invshiftrows _ => 0
  | .mixcolumns _ => 0
  | .invmixcolumns _ => 0
  | .enc _ => 0
  | .dec _ => 0

/-- The payload of a command (R74). -/
def Instr.payload : Instr → List Byte
  | .hinit => []
  | .hwrite data => data
  | .hfinal => []
  | .hread => []
  | .kdf _ password => password
  | .kexp material => material
  | .ksread => []
  | .subbytes block => block.toList
  | .invsubbytes block => block.toList
  | .shiftrows block => block.toList
  | .invshiftrows block => block.toList
  | .mixcolumns block => block.toList
  | .invmixcolumns block => block.toList
  | .addroundkey _ block => block.toList
  | .enc buffer => buffer
  | .dec buffer => buffer

/-- The 32-bit header of a command (R71). -/
def Instr.header (i : Instr) : BitVec 32 :=
  i.op.code ++ i.argField ++ BitVec.ofNat 16 i.payload.length

/-- The bytes of a command: the header, most significant byte first, then the payload (R45, R70). -/
def encode (i : Instr) : List Byte := be32 i.header ++ i.payload

/-! ## The host's probe -/

/-- The bytes of the command whose header is the low 32 bits of `w` (as many of them as `nbits` gives), with a payload
of `LEN` zero bytes: the table gives the payload no bits (log 8). -/
def tableWordBytes (nbits w : Nat) : List Byte :=
  let h := BitVec.ofNat 32 (w % 2 ^ nbits)
  be32 h ++ List.replicate (h.extractLsb' 0 16).toNat 0

/-- The instruction the decoder reads from a word of the opcode table (log 8). -/
def decodeTableWord (nbits w : Nat) : Option Instr :=
  match decode (tableWordBytes nbits w) with
  | .command i _ => some i
  | .illegal _ _ => none
  | .incomplete => none

end Sys2Proof
end

