-- ==== Sys2Proof/Machine/State.lean ====
section
/-!
DEFINITION. The state of the engine (10_state.md R20 to R27), the two byte streams (20_memory.md R40 (d), (e)), the
reset input (70_reset_and_hazards.md R250), the reasons a step can stop, and the state after reset (R38).
-/

namespace Sys2Proof.Machine

/-- The field `PHASE` (R24). The value 3 of the 2-bit field is never held, so it has no constructor. -/
inductive Phase where
  /-- `IDLE = 0`: no hash is open -/
  | idle
  /-- `ABSORBING = 1`: the engine accepts message bytes -/
  | absorbing
  /-- `FINALIZED = 2`: `H` holds a finished digest -/
  | finalized
  deriving DecidableEq, Repr

/-- HashState: the registers of the hash engine (R20 to R24). -/
structure HashState where
  /-- `H[0..7]`, the chaining words (R20) -/
  h : Vector Word 8
  /-- `BUF[0..63]`, the input buffer (R21) -/
  buf : Vector Byte 64
  /-- `BUFLEN`, the bytes buffered (R22) -/
  bufLen : BitVec 6
  /-- `NBLOCKS`, the whole blocks processed (R23) -/
  nBlocks : BitVec Config.nblocksW
  /-- `PHASE` (R24) -/
  phase : Phase
  deriving DecidableEq, Repr

/-- RoundKeySchedule: the registers of the key schedule (R25 to R27). -/
structure KeyState where
  /-- `RKS[0..59]`, the round-key store, a word being 4 bytes (R25) -/
  rks : Vector Column Config.rksWords
  /-- `NK`, the key length in words (R26) -/
  nk : BitVec 4
  /-- `RKS_VALID` (R27) -/
  valid : Bool
  deriving DecidableEq, Repr

/-- The error kinds (60_exceptions.md R220, R221). -/
inductive ErrorKind where
  /-- raised by KEXP and KDF -/
  | invalidKeySize
  /-- raised by KDF -/
  | invalidKeyLength
  /-- raised by ENC and DEC -/
  | shortBlock
  /-- set aside for the I/O collaborator; never raised by the engine (R220, D20) -/
  | ioFailure
  /-- raised by the decoder -/
  | illegalCommand
  /-- raised by HWRITE, HFINAL and HREAD -/
  | protocolError
  /-- raised by KSREAD, ADDROUNDKEY, ENC and DEC -/
  | noSchedule
  /-- raised by ADDROUNDKEY -/
  | badRound
  /-- raised by HWRITE -/
  | lengthOverflow
  deriving DecidableEq, Repr

/-- A response: "success with output bytes, or a specific failure kind" (R30, R72). -/
inductive Response where
  /-- status 0x00 and the output bytes -/
  | ok (out : List Byte)
  /-- one error kind; no output (R224) -/
  | error (e : ErrorKind)
  deriving DecidableEq, Repr

/-- Why the machine stops with a fault: never. Every error of the spec is a response after which the engine takes the
next command (R224, R225), so no step of this model faults, and the type has no constructor (log 14). Safe: a claim that
no step faults is what R225 says. -/
inductive Fault where
  deriving DecidableEq, Repr

/-- Why the machine refuses. -/
inductive Refusal where
  /-- The instruction of this mnemonic has no meaning yet. Raised by a refused arm of `exec` alone; no arm is refused
  now. Safe: nothing is claimed of an instruction that is refused. -/
  | notModelled (mnemonic : String)
  deriving DecidableEq, Repr

/-- The whole state. `hash` and `keys` are the engine's registers (R31); `input` and `output` are the streams to and
from the host (R40 (d), (e)); `resetIn` and `freeIdx` are the model's own fields (log 5, 6). -/
structure State where
  /-- the hash engine's registers (R20 to R24) -/
  hash : HashState
  /-- the key schedule's registers (R25 to R27) -/
  keys : KeyState
  /-- the command stream: bytes the host has issued and the engine has not taken, in order (R40 (d), R70; log 1) -/
  input : List Byte
  /-- the output stream: the responses returned, oldest first (R40 (e), R72; log 3) -/
  output : List Response
  /-- the reset input is asserted (R250; log 5) -/
  resetIn : Bool
  /-- the model's own counter of free values drawn (log 6) -/
  freeIdx : Nat
  deriving DecidableEq, Repr

/-- The state after reset (R38, R251): `PHASE = IDLE` and `RKS_VALID = 0`. The spec leaves the other registers
unspecified; the model's zeros are DESIGN CHOICE (log 4). Nothing has been issued and nothing answered (R250). -/
def State.reset : State where
  hash :=
    { h := Vector.replicate 8 0
      buf := Vector.replicate 64 0
      bufLen := 0
      nBlocks := 0
      phase := .idle }
  keys :=
    { rks := Vector.replicate Config.rksWords (Vector.replicate 4 0)
      nk := 0
      valid := false }
  input := []
  output := []
  resetIn := false
  freeIdx := 0

end Sys2Proof.Machine
end

