-- ==== Sys2Proof/Machine/Ops.lean ====
section
/-!
DEFINITION. The shared operations: byte order, word arithmetic, field arithmetic, and the two ways a command ends
(00_scope.md R14): with output (`emit`) or with an error (`raise`). There is no addressable memory to read or write
(10_state.md R28, 20_memory.md R40) and no return from an error (60_exceptions.md R225); taking an error is `raise`,
the one shared operation.
-/

namespace Sys2Proof.Machine

/-! ## How a command ends -/

/-- The response goes to the host (R40 (e), R70). -/
def respond (r : Response) (s : State) : State := { s with output := s.output ++ [r] }

/-- A command succeeds with these output bytes (R14, R72). -/
def emit (out : List Byte) (s : State) : Host.Outcome State Fault Refusal := .next (respond (.ok out) s)

/-- A command ends with an error (R14, R224): no output, no state change, and the engine is ready for the next
command (R225), so this is a next state. -/
def raise (e : ErrorKind) (s : State) : Host.Outcome State Fault Refusal := .next (respond (.error e) s)

/-- The `STATUS` codes of the error kinds (R221). -/
def ErrorKind.code : ErrorKind → BitVec 8
  | .invalidKeySize => 0x01
  | .invalidKeyLength => 0x02
  | .shortBlock => 0x03
  | .ioFailure => 0x04
  | .illegalCommand => 0x10
  | .protocolError => 0x11
  | .noSchedule => 0x12
  | .badRound => 0x13
  | .lengthOverflow => 0x14

/-- The field `STATUS` of a response header (R72). -/
def Response.status : Response → BitVec 8
  | .ok _ => 0x00
  | .error e => e.code

/-- The output bytes of a response; none on an error (R72, R224). -/
def Response.data : Response → List Byte
  | .ok out => out
  | .error _ => []

/-- The 32-bit response header: `STATUS`, a zero byte, `OUTLEN` (R72). -/
def Response.header (r : Response) : BitVec 32 :=
  r.status ++ (0 : BitVec 8) ++ BitVec.ofNat 16 r.data.length

/-- A response as bytes: its header, most significant byte first, then the output bytes (R45, R70). -/
def Response.bytes (r : Response) : List Byte := be32 r.header ++ r.data

/-- The output stream as the bytes the host receives (R40 (e)). -/
def State.outBytes (s : State) : List Byte := s.output.flatMap Response.bytes

/-- Reset values of the hash registers (R38, R251): `PHASE = IDLE`; the other registers unspecified (U8, U21), so
free values (log 5). -/
def resetHash (n : Nat) : HashState where
  h := Config.freeChain n
  buf := Config.freeBuf n
  bufLen := Config.freeBufLen n
  nBlocks := Config.freeNBlocks n
  phase := .idle

/-- Reset values of the key schedule's registers (R38, R251): `RKS_VALID = 0`; the others free values (log 5). -/
def resetKeys (n : Nat) : KeyState where
  rks := Config.freeSchedule n
  nk := Config.freeNk n
  valid := false

/-- The reset event (R250): the registers take their reset values, and a command cut off by it "produces no response".
The bytes issued and not answered are dropped and the reset input is released (DESIGN CHOICE, log 5). -/
def takeReset (s : State) : State :=
  { s with
    hash := resetHash s.freeIdx
    keys := resetKeys s.freeIdx
    input := []
    resetIn := false
    freeIdx := s.freeIdx + 1 }

/-! ## Byte order (R14, R42) -/

/-- `be64(v)`: the 8 bytes of a 64-bit value, most significant first (R14). -/
def be64 (v : BitVec 64) : List Byte := be32 (v.extractLsb' 32 32) ++ be32 (v.extractLsb' 0 32)

/-- `word_be(X)`: the word whose most significant byte is `X[0]`, for a 4-byte `X` (R14). -/
def wordBe (bytes : List Byte) : Word :=
  bytes.getD 0 0 ++ bytes.getD 1 0 ++ bytes.getD 2 0 ++ bytes.getD 3 0

/-! ## Word arithmetic (R100, R102) -/

/-- `rotr(x, n) = (x >> n) | (x << (32 − n))`, for `n` in 1 to 31 (R100). -/
def rotr (x : Word) (n : Nat) : Word := (x >>> n) ||| (x <<< (32 - n))

/-- `Ch(x, y, z)` (R102). -/
def ch (x y z : Word) : Word := (x &&& y) ^^^ (~~~x &&& z)

/-- `Maj(x, y, z)` (R102). -/
def maj (x y z : Word) : Word := (x &&& y) ^^^ (x &&& z) ^^^ (y &&& z)

/-- `Σ0(x)` (R102). -/
def bigSigma0 (x : Word) : Word := rotr x 2 ^^^ rotr x 13 ^^^ rotr x 22

/-- `Σ1(x)` (R102). -/
def bigSigma1 (x : Word) : Word := rotr x 6 ^^^ rotr x 11 ^^^ rotr x 25

/-- `σ0(x)` (R102). -/
def smallSigma0 (x : Word) : Word := rotr x 7 ^^^ rotr x 18 ^^^ (x >>> 3)

/-- `σ1(x)` (R102). -/
def smallSigma1 (x : Word) : Word := rotr x 17 ^^^ rotr x 19 ^^^ (x >>> 10)

/-! ## Field arithmetic (R160 to R162) -/

/-- `xtime(x)`: multiplication by `{02}` (R161). -/
def xtime (x : Byte) : Byte := (x <<< 1) ^^^ (if x.getLsbD 7 then 0x1b else 0x00)

/-- The loop of `multiply`: from bit `i` on, `fuel` bits of `y` are left; `p` is `x · {02}^i`, `r` the sum so far (R162). -/
def multiplyFrom (y : Byte) : (fuel i : Nat) → (p r : Byte) → Byte
  | 0, _, _, r => r
  | fuel + 1, i, p, r => multiplyFrom y fuel (i + 1) (xtime p) (if y.getLsbD i then r ^^^ p else r)

/-- `multiply(x, y)`, the product modulo `x^8+x^4+x^3+x+1` by shift and add (R162). -/
def multiply (x y : Byte) : Byte := multiplyFrom y 8 0 x 0x00

end Sys2Proof.Machine
end

