-- ==== Sys2Proof/Machine/Flags.lean ====
section
/-!
DEFINITION. The engine has no condition codes, carry or overflow flags (10_state.md R29). "The only one-bit or few-bit
status the engine keeps is `PHASE` and `RKS_VALID`": their codes, and every check that reads state (60_exceptions.md
R221, R226).
-/

namespace Sys2Proof.Machine

/-- The 2-bit code of `PHASE` (R24). -/
def Phase.code : Phase → BitVec 2
  | .idle => 0
  | .absorbing => 1
  | .finalized => 2

/-- The 1-bit code of `RKS_VALID` (R27). -/
def KeyState.validBit (k : KeyState) : BitVec 1 := BitVec.ofBool k.valid

/-- `NBLOCKS + (BUFLEN + LEN) div 64 > 2^55 − 1`, the condition of `LengthOverflow` (R108). -/
def wouldOverflow (hs : HashState) (len : Nat) : Bool :=
  decide (Config.maxBlocks < hs.nBlocks.toNat + (hs.bufLen.toNat + len) / 64)

/-- `NR = NK + 6` (R26). -/
def KeyState.rounds (k : KeyState) : Nat := Config.rounds k.nk.toNat

/-- The lengths a key may have in bytes: 16, 24 or 32 (R9, R131, R141). -/
def validKeyBytes (n : Nat) : Bool := n == 16 || n == 24 || n == 32

end Sys2Proof.Machine
end

