-- ==== Sys2Proof/Machine/Operands.lean ====
section
/-!
DEFINITION. Operand assembly (30_encoding.md R74) and the views of the stores (20_memory.md R43, R44): every form in
which a command reads its payload and the round-key store.
-/

namespace Sys2Proof.Machine

/-- Block `i` of a buffer, `In[16i .. 16i+16]` (R74). -/
def bufferBlock (buffer : List Byte) (i : Nat) : Block := blockOfBytes ((buffer.drop (16 * i)).take 16)

/-- The blocks of a buffer, `i` from 0 to `LEN div 16 − 1` (R74). -/
def bufferBlocks (buffer : List Byte) : List Block :=
  (List.range (buffer.length / 16)).map (bufferBlock buffer)

/-- Word `i` of the KeyMaterial, `In[4i .. 4i+4]` (R74, R142). -/
def keyWord (material : List Byte) (i : Nat) : Column := Vector.ofFn fun j => material.getD (4 * i + j.val) 0

/-- `RKS[i]`; an index beyond the store, which no rule uses, reads as zero bytes (R25, log 10). -/
def scheduleWord (rks : Vector Column Config.rksWords) (i : Nat) : Column :=
  rks.toList.getD i (Vector.replicate 4 0)

/-- The byte view `RKB[j] = RKS[j div 4][j mod 4]` (R25). -/
def scheduleByte (rks : Vector Column Config.rksWords) (j : Nat) : Byte :=
  (scheduleWord rks (j / 4))[j % 4]'(Nat.mod_lt _ (by decide))

/-- Round key `r`, the 16 bytes `RKB[16r .. 16r+16]` (R25, R43 (c)). -/
def roundKey (rks : Vector Column Config.rksWords) (r : Nat) : Block :=
  Vector.ofFn fun k => scheduleByte rks (16 * r + k.val)

/-- Column `c` of the State: the bytes `S[4c .. 4c+3]`, rows 0 to 3 (R32, R171). -/
def stateColumn (s : Block) (c : Fin 4) : Column := Vector.ofFn fun r => s[4 * c.val + r.val]'(by omega)

/-- The State of four columns (R32): byte `k` is row `k mod 4` of column `k div 4`. -/
def ofColumns (col : Fin 4 → Column) : Block :=
  Vector.ofFn fun k => (col ⟨k.val / 4, by omega⟩)[k.val % 4]'(Nat.mod_lt _ (by decide))

end Sys2Proof.Machine
end

