-- ==== Sys2Proof/Machine/Round.lean ====
section
/-!
DEFINITION. RoundEngine (43_round_engine.md): the seven transforms as functions from 16 bytes to 16 bytes (R163), and
the command that applies each to its payload. The first six read and write no register and cannot fail.
-/

namespace Sys2Proof.Machine

/-! ## The transforms -/

/-- SubBytes: `S'[k] <- SBOX[S[k]]` (R166). -/
def subBytes (s : Block) : Block := s.map sbox

/-- InvSubBytes: `S'[k] <- INVSBOX[S[k]]` (R167). -/
def invSubBytes (s : Block) : Block := s.map invSbox

/-- ShiftRows: row `r`, column `c` of the result is row `r`, column `(c + r) mod 4` of the input (R168, R170). -/
def shiftRows (s : Block) : Block :=
  Vector.ofFn fun k => s[k.val % 4 + 4 * ((k.val / 4 + k.val % 4) % 4)]'(by omega)

/-- InvShiftRows: row `r`, column `c` of the result is row `r`, column `(c − r) mod 4` of the input (R169). -/
def invShiftRows (s : Block) : Block :=
  Vector.ofFn fun k => s[k.val % 4 + 4 * ((k.val / 4 + 4 - k.val % 4) % 4)]'(by omega)

/-- One column of MixColumns, the matrix with first row `02 03 01 01` (R171). -/
def mixColumn (a : Column) : Column :=
  #v[multiply a[0] 0x02 ^^^ multiply a[1] 0x03 ^^^ a[2] ^^^ a[3],
     a[0] ^^^ multiply a[1] 0x02 ^^^ multiply a[2] 0x03 ^^^ a[3],
     a[0] ^^^ a[1] ^^^ multiply a[2] 0x02 ^^^ multiply a[3] 0x03,
     multiply a[0] 0x03 ^^^ a[1] ^^^ a[2] ^^^ multiply a[3] 0x02]

/-- MixColumns: each column by itself (R171, R173). -/
def mixColumns (s : Block) : Block := ofColumns fun c => mixColumn (stateColumn s c)

/-- One column of InvMixColumns, the matrix with first row `0e 0b 0d 09` (R172). -/
def invMixColumn (a : Column) : Column :=
  #v[multiply a[0] 0x0e ^^^ multiply a[1] 0x0b ^^^ multiply a[2] 0x0d ^^^ multiply a[3] 0x09,
     multiply a[0] 0x09 ^^^ multiply a[1] 0x0e ^^^ multiply a[2] 0x0b ^^^ multiply a[3] 0x0d,
     multiply a[0] 0x0d ^^^ multiply a[1] 0x09 ^^^ multiply a[2] 0x0e ^^^ multiply a[3] 0x0b,
     multiply a[0] 0x0b ^^^ multiply a[1] 0x0d ^^^ multiply a[2] 0x09 ^^^ multiply a[3] 0x0e]

/-- InvMixColumns: each column by itself (R172, R173). -/
def invMixColumns (s : Block) : Block := ofColumns fun c => invMixColumn (stateColumn s c)

/-- AddRoundKey: `S'[k] <- S[k] ^ RKB[16r + k]`, with round key `r` of the store (R43 (c), R174). -/
def addRoundKey (rks : Vector Column Config.rksWords) (s : Block) (r : Nat) : Block :=
  Vector.ofFn fun k => s[k] ^^^ (roundKey rks r)[k]

/-! ## The commands -/

/-- SUBBYTES (R166). -/
def execSubbytes (block : Block) (s : State) : Host.Outcome State Fault Refusal :=
  emit (subBytes block).toList s

/-- INVSUBBYTES (R167). -/
def execInvsubbytes (block : Block) (s : State) : Host.Outcome State Fault Refusal :=
  emit (invSubBytes block).toList s

/-- SHIFTROWS (R168). -/
def execShiftrows (block : Block) (s : State) : Host.Outcome State Fault Refusal :=
  emit (shiftRows block).toList s

/-- INVSHIFTROWS (R169). -/
def execInvshiftrows (block : Block) (s : State) : Host.Outcome State Fault Refusal :=
  emit (invShiftRows block).toList s

/-- MIXCOLUMNS (R171). -/
def execMixcolumns (block : Block) (s : State) : Host.Outcome State Fault Refusal :=
  emit (mixColumns block).toList s

/-- INVMIXCOLUMNS (R172). -/
def execInvmixcolumns (block : Block) (s : State) : Host.Outcome State Fault Refusal :=
  emit (invMixColumns block).toList s

/-- ADDROUNDKEY (R174): `NoSchedule` if `RKS_VALID = 0`, then `BadRound` if `r > NK + 6`; changes no register. -/
def execAddroundkey (arg : BitVec 8) (block : Block) (s : State) : Host.Outcome State Fault Refusal :=
  if !s.keys.valid then raise .noSchedule s
  else if arg.toNat > s.keys.rounds then raise .badRound s
  else emit (addRoundKey s.keys.rks block arg.toNat).toList s

end Sys2Proof.Machine
end

