-- ==== Sys2Proof/Machine/Cipher.lean ====
section
/-!
DEFINITION. CipherDriver (44_cipher_driver.md): ENC and DEC. Every block of the buffer by itself (ECB, R197, R199), in
index order (R53).
-/

namespace Sys2Proof.Machine

/-- A full encryption round (R192). -/
def encRound (rks : Vector Column Config.rksWords) (s : Block) (round : Nat) : Block :=
  addRoundKey rks (mixColumns (shiftRows (subBytes s))) round

/-- `EncryptBlock(B)` (R192): round keys 0, 1, …, `NR`, MixColumns omitted in the last round. -/
def encryptBlock (k : KeyState) (block : Block) : Block :=
  let s := (List.range' 1 (k.rounds - 1)).foldl (encRound k.rks) (addRoundKey k.rks block 0)
  addRoundKey k.rks (shiftRows (subBytes s)) k.rounds

/-- A full decryption round (R193): InvMixColumns after AddRoundKey. -/
def decRound (rks : Vector Column Config.rksWords) (s : Block) (round : Nat) : Block :=
  invMixColumns (addRoundKey rks (invSubBytes (invShiftRows s)) round)

/-- `DecryptBlock(B)` (R193): round keys `NR`, …, 1, 0 of the same schedule. -/
def decryptBlock (k : KeyState) (block : Block) : Block :=
  let s := (List.range' 1 (k.rounds - 1)).reverse.foldl (decRound k.rks) (addRoundKey k.rks block k.rounds)
  addRoundKey k.rks (invSubBytes (invShiftRows s)) 0

/-- The bytes of a buffer with every block transformed (R195, R196). -/
def mapBlocks (f : Block → Block) (buffer : List Byte) : List Byte :=
  (bufferBlocks buffer).flatMap fun b => (f b).toList

/-- ENC (R194, R195): `ShortBlock` if `LEN mod 16 ≠ 0`, then `NoSchedule`; changes no register. -/
def execEnc (buffer : List Byte) (s : State) : Host.Outcome State Fault Refusal :=
  if buffer.length % 16 ≠ 0 then raise .shortBlock s
  else if !s.keys.valid then raise .noSchedule s
  else emit (mapBlocks (encryptBlock s.keys) buffer) s

/-- DEC (R194, R196). -/
def execDec (buffer : List Byte) (s : State) : Host.Outcome State Fault Refusal :=
  if buffer.length % 16 ≠ 0 then raise .shortBlock s
  else if !s.keys.valid then raise .noSchedule s
  else emit (mapBlocks (decryptBlock s.keys) buffer) s

end Sys2Proof.Machine
end

