-- ==== Sys2Proof/Machine/Hash.lean ====
section
/-!
DEFINITION. HashEngine (40_hash_engine.md): the micro-operation TRANSFORM and the commands HINIT, HWRITE, HFINAL and
HREAD. The effects are functions on HashState; KDF uses the same ones.
-/

namespace Sys2Proof.Machine

/-! ## TRANSFORM (R112) -/

/-- `W[t]` for `t` in 16..63: `σ1(W[t-2]) + W[t-7] + σ0(W[t-15]) + W[t-16]`, appended to the words before it (R112). -/
def scheduleStep (w : List Word) (t : Nat) : List Word :=
  w ++ [smallSigma1 (w.getD (t - 2) 0) + w.getD (t - 7) 0 + smallSigma0 (w.getD (t - 15) 0) + w.getD (t - 16) 0]

/-- `W[0..15]`: the block as sixteen big-endian words (R42 (c), R112). -/
def blockWords (block : List Byte) : List Word :=
  (List.range 16).map fun t => wordBe ((block.drop (4 * t)).take 4)

/-- `W[0..63]`, the message schedule (R112). -/
def messageSchedule (block : List Byte) : List Word :=
  (List.range' 16 48).foldl scheduleStep (blockWords block)

/-- The eight working words of TRANSFORM (R34). -/
structure Working where
  a : Word
  b : Word
  c : Word
  d : Word
  e : Word
  f : Word
  g : Word
  h : Word
  deriving DecidableEq, Repr

/-- The working words at the start: `a <- H[0]; …; h <- H[7]` (R112). -/
def Working.load (h : Vector Word 8) : Working where
  a := h[0]
  b := h[1]
  c := h[2]
  d := h[3]
  e := h[4]
  f := h[5]
  g := h[6]
  h := h[7]

/-- One round, with `K256[t]` and `W[t]` (R112): the eight assignments read the old values. -/
def hashRound (v : Working) (kw : Word × Word) : Working :=
  let t1 := v.h + bigSigma1 v.e + ch v.e v.f v.g + kw.1 + kw.2
  let t2 := bigSigma0 v.a + maj v.a v.b v.c
  { a := t1 + t2, b := v.a, c := v.b, d := v.c, e := v.d + t1, f := v.e, g := v.f, h := v.g }

/-- The final addition: `H[i] <- H[i] +32` the working word (R112). -/
def Working.addTo (v : Working) (h : Vector Word 8) : Vector Word 8 :=
  #v[h[0] + v.a, h[1] + v.b, h[2] + v.c, h[3] + v.d, h[4] + v.e, h[5] + v.f, h[6] + v.g, h[7] + v.h]

/-- The new chaining words of TRANSFORM on a 64-byte block (R112). -/
def compress (h : Vector Word 8) (block : List Byte) : Vector Word 8 :=
  ((k256.zip (messageSchedule block)).foldl hashRound (Working.load h)).addTo h

/-- TRANSFORM: reads `BUF` and `H`, writes `H` only (R112). -/
def transform (hs : HashState) : HashState := { hs with h := compress hs.h hs.buf.toList }

/-! ## HINIT (R104) -/

/-- The effect of HINIT; `BUF` is not cleared (R104). -/
def hashInit (hs : HashState) : HashState :=
  { hs with h := iv256, bufLen := 0, nBlocks := 0, phase := .absorbing }

/-- HINIT: legal in every phase, no output, no error (R104, R105). -/
def execHinit (s : State) : Host.Outcome State Fault Refusal :=
  emit [] { s with hash := hashInit s.hash }

/-! ## HWRITE (R106 to R108) -/

/-- `BUF[BUFLEN] <- b` (R107). -/
def putByte (hs : HashState) (b : Byte) : HashState :=
  { hs with buf := hs.buf.set hs.bufLen.toNat b hs.bufLen.isLt }

/-- One turn of the HWRITE loop (R107). The count reaches 64 only inside the turn (R22): there the block is compressed,
`NBLOCKS` is advanced and `BUFLEN` becomes 0. -/
def absorbByte (hs : HashState) (b : Byte) : HashState :=
  let hs1 := putByte hs b
  if hs.bufLen.toNat + 1 = 64 then { transform hs1 with nBlocks := hs.nBlocks + 1, bufLen := 0 }
  else { hs1 with bufLen := hs.bufLen + 1 }

/-- The HWRITE loop over a chunk (R107). -/
def absorb (hs : HashState) (data : List Byte) : HashState := data.foldl absorbByte hs

/-- HWRITE: `ProtocolError` unless `PHASE` is ABSORBING, then `LengthOverflow`, then the loop (R106 to R108). -/
def execHwrite (data : List Byte) (s : State) : Host.Outcome State Fault Refusal :=
  if s.hash.phase ≠ .absorbing then raise .protocolError s
  else if wouldOverflow s.hash data.length then raise .lengthOverflow s
  else emit [] { s with hash := absorb s.hash data }

/-! ## HFINAL (R109, R110) -/

/-- `for i in lo .. hi-1: BUF[i] <- 0x00` (R109). -/
def zeroRange (buf : Vector Byte 64) (lo hi : Nat) : Vector Byte 64 :=
  Vector.ofFn fun i => if lo ≤ i.val ∧ i.val < hi then 0x00 else buf[i]

/-- `BUF[56..64] <- be64(L)` (R109). -/
def putLength (buf : Vector Byte 64) (bits : BitVec 64) : Vector Byte 64 :=
  Vector.ofFn fun i => if 56 ≤ i.val then (be64 bits).getD (i.val - 56) 0 else buf[i]

/-- `L`, the message length in bits, as the 64-bit value `512 · NBLOCKS + 8 · BUFLEN` (R109). -/
def bitLength (hs : HashState) : BitVec 64 := BitVec.ofNat 64 (512 * hs.nBlocks.toNat + 8 * hs.bufLen.toNat)

/-- The padding up to the length field (R109): the `0x80` byte; if it leaves more than 56 bytes in the buffer, the rest
of the block is zeroed and compressed and the buffer starts again; then zeros up to byte 55. -/
def padBuffer (hs : HashState) : HashState :=
  let n := hs.bufLen.toNat + 1
  let hs1 := putByte hs 0x80
  if n > 56 then
    let hs2 := transform { hs1 with buf := zeroRange hs1.buf n 64 }
    { hs2 with buf := zeroRange hs2.buf 0 56 }
  else { hs1 with buf := zeroRange hs1.buf n 56 }

/-- The effect of HFINAL (R109, R110): `NBLOCKS` is unchanged and `BUF` keeps the last padded block. -/
def hashFinal (hs : HashState) : HashState :=
  let padded := padBuffer hs
  let last := transform { padded with buf := putLength padded.buf (bitLength hs) }
  { last with bufLen := 0, phase := .finalized }

/-- HFINAL: `ProtocolError` unless `PHASE` is ABSORBING (R109). -/
def execHfinal (s : State) : Host.Outcome State Fault Refusal :=
  if s.hash.phase ≠ .absorbing then raise .protocolError s
  else emit [] { s with hash := hashFinal s.hash }

/-! ## HREAD (R111) -/

/-- `be32(H[0]) || … || be32(H[7])`, the 32-byte Digest (R42 (a), R111). -/
def digestBytes (h : Vector Word 8) : List Byte := h.toList.flatMap be32

/-- HREAD: `ProtocolError` unless `PHASE` is FINALIZED; changes no register (R111). -/
def execHread (s : State) : Host.Outcome State Fault Refusal :=
  if s.hash.phase ≠ .finalized then raise .protocolError s
  else emit (digestBytes s.hash.h) s

end Sys2Proof.Machine
end

