-- ==== Sys2Proof/Machine/Kdf.lean ====
section
/-!
DEFINITION. KeyDerivation (41_key_derivation.md): KDF.
-/

namespace Sys2Proof.Machine

/-- HINIT, HWRITE of the whole password, HFINAL, on the one HashState (R131). `LengthOverflow` cannot arise (R131). -/
def hashPassword (hs : HashState) (password : List Byte) : HashState :=
  hashFinal (absorb (hashInit hs) password)

/-- KDF (R131): `InvalidKeyLength` if `L > 32`, `InvalidKeySize` if `L` is not 16, 24 or 32, then one hash pass over the
password, of whose digest the first `L` bytes are emitted. Legal in every phase; writes nothing on the AES side. -/
def execKdf (arg : BitVec 8) (password : List Byte) (s : State) : Host.Outcome State Fault Refusal :=
  if arg.toNat > 32 then raise .invalidKeyLength s
  else if !validKeyBytes arg.toNat then raise .invalidKeySize s
  else
    let hs := hashPassword s.hash password
    emit ((digestBytes hs.h).take arg.toNat) { s with hash := hs }

end Sys2Proof.Machine
end

