-- ==== Sys2Proof/Machine/KeySchedule.lean ====
section
/-!
DEFINITION. KeySchedule (42_key_schedule.md): KEXP and KSREAD.
-/

namespace Sys2Proof.Machine

/-- Rotate left by one byte: `[a0,a1,a2,a3] → [a1,a2,a3,a0]` (R142). -/
def rotWord (w : Column) : Column := #v[w[1], w[2], w[3], w[0]]

/-- Substitute each byte through the forward S-box (R142). -/
def subWord (w : Column) : Column := w.map sbox

/-- Word-wise XOR of 4 bytes (R142). -/
def xorWord (x y : Column) : Column := Vector.ofFn fun j => x[j] ^^^ y[j]

/-- `temp` for word `i`, from `RKS[i-1]` (R142): rotate, substitute, constant into byte 0 when `i mod NK = 0`; substitute
only when `NK > 6` and `i mod NK = 4`; else unchanged. -/
def scheduleTemp (nk i : Nat) (prev : Column) : Column :=
  if i % nk = 0 then
    let t := subWord (rotWord prev)
    t.set 0 (t[0] ^^^ rcon (i / nk))
  else if nk > 6 ∧ i % nk = 4 then subWord prev
  else prev

/-- `RKS[i] <- RKS[i-NK] ^ temp` (R142). -/
def expandWord (nk : Nat) (rks : Vector Column Config.rksWords) (i : Nat) : Vector Column Config.rksWords :=
  rks.setIfInBounds i (xorWord (scheduleWord rks (i - nk)) (scheduleTemp nk i (scheduleWord rks (i - 1))))

/-- `for i in 0 .. NK-1: RKS[i] <- In[4i .. 4i+4]` (R142). -/
def loadKey (nk : Nat) (material : List Byte) (rks : Vector Column Config.rksWords) : Vector Column Config.rksWords :=
  (List.range nk).foldl (fun r i => r.setIfInBounds i (keyWord material i)) rks

/-- The expansion (R142): words `0 .. 4·(NK+7)−1` are written, the words above keep what they hold (R141). -/
def expandKey (nk : Nat) (material : List Byte) (rks : Vector Column Config.rksWords) : Vector Column Config.rksWords :=
  (List.range' nk (Config.scheduleWords nk - nk)).foldl (expandWord nk) (loadKey nk material rks)

/-- KEXP (R141): `InvalidKeySize` unless `LEN` is 16, 24 or 32; else `NK <- LEN div 4`, the schedule, `RKS_VALID <- 1`. -/
def execKexp (material : List Byte) (s : State) : Host.Outcome State Fault Refusal :=
  if !validKeyBytes material.length then raise .invalidKeySize s
  else
    let nk := material.length / 4
    emit [] { s with keys := { rks := expandKey nk material s.keys.rks, nk := BitVec.ofNat 4 nk, valid := true } }

/-- The schedule as bytes, word 0 byte 0 first: words `0 .. 4·(NK+7)−1` (R146). -/
def scheduleBytes (k : KeyState) : List Byte :=
  (k.rks.toList.take (Config.scheduleWords k.nk.toNat)).flatMap Vector.toList

/-- KSREAD (R146): `NoSchedule` if `RKS_VALID = 0`; else the schedule; changes no register. -/
def execKsread (s : State) : Host.Outcome State Fault Refusal :=
  if !s.keys.valid then raise .noSchedule s
  else emit (scheduleBytes s.keys) s

end Sys2Proof.Machine
end

