-- ==== Sys2Proof/Machine/Dispatch.lean ====
section
/-!
DEFINITION. Which meaning each command has (30_encoding.md R75): one arm per constructor of `Instr`.
-/

namespace Sys2Proof.Machine

def exec (i : Instr) (s : State) : Host.Outcome State Fault Refusal :=
  match i with
  -- HashEngine
  | .hinit => Sys2Proof.Machine.execHinit s
  | .hwrite data => Sys2Proof.Machine.execHwrite data s
  | .hfinal => Sys2Proof.Machine.execHfinal s
  | .hread => Sys2Proof.Machine.execHread s
  -- KeyDerivation
  | .kdf arg password => Sys2Proof.Machine.execKdf arg password s
  -- KeySchedule
  | .kexp material => Sys2Proof.Machine.execKexp material s
  | .ksread => Sys2Proof.Machine.execKsread s
  -- RoundEngine
  | .subbytes block => Sys2Proof.Machine.execSubbytes block s
  | .invsubbytes block => Sys2Proof.Machine.execInvsubbytes block s
  | .shiftrows block => Sys2Proof.Machine.execShiftrows block s
  | .invshiftrows block => Sys2Proof.Machine.execInvshiftrows block s
  | .mixcolumns block => Sys2Proof.Machine.execMixcolumns block s
  | .invmixcolumns block => Sys2Proof.Machine.execInvmixcolumns block s
  | .addroundkey arg block => Sys2Proof.Machine.execAddroundkey arg block s
  -- CipherDriver
  | .enc buffer => Sys2Proof.Machine.execEnc buffer s
  | .dec buffer => Sys2Proof.Machine.execDec buffer s

end Sys2Proof.Machine
end

