-- ==== Sys2Proof/Machine/Step.lean ====
section
/-!
DEFINITION. One step of the machine: the reset event if the reset input is asserted (70_reset_and_hazards.md R250);
else the first whole command of the stream, taken and run (20_memory.md R48); else nothing (60_exceptions.md R234).
-/

namespace Sys2Proof.Machine

/-- The command stream after a command is taken from its front (R48, R70). -/
def State.withInput (s : State) (bytes : List Byte) : State := { s with input := bytes }

/-- One step. A whole legal command runs (R48); a whole illegal one is taken with its payload and answered with
`IllegalCommand` (R77, R222); with no whole command in the stream the engine waits, "waiting keeps all state" (R234,
log 2). -/
def step (s : State) : Host.Outcome State Fault Refusal :=
  if s.resetIn then .next (takeReset s)
  else
    match decode s.input with
    | .command i rest => exec i (s.withInput rest)
    | .illegal _ rest => raise .illegalCommand (s.withInput rest)
    | .incomplete => .next s

/-- `s` with the command of a table word at the front of the command stream, so that the next step runs exactly it: the
host has issued it (R70), and the reset input is not asserted (log 7, 8). -/
def State.withFetchWord (s : State) (nbits w : Nat) : State :=
  { s with input := tableWordBytes nbits w ++ s.input, resetIn := false }

end Sys2Proof.Machine
end

