-- ==== Sys2Proof/Safety.lean ====
section
/-!
DEFINITION. The terms the statements use beside the machine: command sequences, SHA-256 as the spec defines it in one
piece (40_hash_engine.md R114), the invariants of 10_state.md R33, the read and write sets of R37, the order of checks of
60_exceptions.md R226, the cipher driver as the state machine of 44_cipher_driver.md R191, and agreement on the
registers that hold a defined value (R38).
-/

namespace Sys2Proof.Machine

/-! ## Sequences of commands -/

/-- Commands run in issue order (20_memory.md R51). -/
def execAll : List Instr → State → Host.Outcome State Fault Refusal
  | [], s => .next s
  | i :: is, s =>
    match exec i s with
    | .next t => execAll is t
    | .fault r => .fault r
    | .refused r => .refused r

/-! ## SHA-256 in one piece (R114) -/

/-- The whole 64-byte blocks of a byte sequence, in order. -/
def wholeBlocks (bytes : List Byte) : List (List Byte) :=
  (List.range (bytes.length / 64)).map fun i => (bytes.drop (64 * i)).take 64

/-- The chaining value after compressing the whole 64-byte blocks of `bytes` in order, from `h` (R107, R114). -/
def compressAll (h : Vector Word 8) (bytes : List Byte) : Vector Word 8 := (wholeBlocks bytes).foldl compress h

/-- `0x80 || 0x00 × z || be64(bits)`, with `z` the least count that makes `n` bytes and these a multiple of 64 (R114). -/
def padding (n : Nat) (bits : Nat) : List Byte :=
  0x80 :: (List.replicate ((119 - n % 64) % 64) 0x00 ++ be64 (BitVec.ofNat 64 bits))

/-- The chaining value of the padded message `M || padding` from `IV256` (R114). -/
def sha256Words (msg : List Byte) : Vector Word 8 :=
  compressAll iv256 (msg ++ padding msg.length (8 * msg.length))

/-- SHA-256 of a message, 32 bytes (R114). -/
def sha256 (msg : List Byte) : List Byte := digestBytes (sha256Words msg)

/-! ## The invariants that hold between commands (R33) -/

/-- `NK` is 4, 6 or 8 (R26). -/
def legalNk (nk : Nat) : Prop := nk = 4 ∨ nk = 6 ∨ nk = 8

/-- Every word from `NK` to `4·(NK+7)−1` satisfies the recurrence of R142 (R33 (d)). -/
def Recurrence (nk : Nat) (rks : Vector Column Config.rksWords) : Prop :=
  ∀ i, nk ≤ i → i < Config.scheduleWords nk →
    scheduleWord rks i = xorWord (scheduleWord rks (i - nk)) (scheduleTemp nk i (scheduleWord rks (i - 1)))

/-- R33 (d): a valid schedule has a legal key length and satisfies the recurrence. -/
def KeyState.Inv (k : KeyState) : Prop :=
  k.valid = true → legalNk k.nk.toNat ∧ Recurrence k.nk.toNat k.rks

/-- R33 (e) for the message `msg`: `H` is the result of compressing its first `64·NBLOCKS` bytes from `IV256`, and
`BUF[0..BUFLEN]` holds the bytes after those. -/
def HashState.Holds (hs : HashState) (msg : List Byte) : Prop :=
  msg.length = 64 * hs.nBlocks.toNat + hs.bufLen.toNat ∧
  hs.h = compressAll iv256 (msg.take (64 * hs.nBlocks.toNat)) ∧
  hs.buf.toList.take hs.bufLen.toNat = msg.drop (64 * hs.nBlocks.toNat)

/-- R33 (e), and R24: while ABSORBING the registers hold a message so far; while FINALIZED `H` holds a finished digest. -/
def HashState.Inv (hs : HashState) : Prop :=
  (hs.phase = .absorbing → ∃ msg, hs.Holds msg) ∧
  (hs.phase = .finalized → ∃ msg, msg.length < 2 ^ 61 ∧ hs.h = sha256Words msg)

/-- The invariants of R33. Its parts (a), (b), (c) hold by the registers' types. -/
def State.Inv (s : State) : Prop := s.hash.Inv ∧ s.keys.Inv

/-! ## Which command touches which register (R37) -/

/-- The registers of the table of R37. -/
inductive Register where
  | h | buf | bufLen | nBlocks | phase | rks | nk | valid
  deriving DecidableEq, Repr

/-- The register holds the same value in both states. -/
def Register.same (s t : State) : Register → Prop
  | .h => s.hash.h = t.hash.h
  | .buf => s.hash.buf = t.hash.buf
  | .bufLen => s.hash.bufLen = t.hash.bufLen
  | .nBlocks => s.hash.nBlocks = t.hash.nBlocks
  | .phase => s.hash.phase = t.hash.phase
  | .rks => s.keys.rks = t.keys.rks
  | .nk => s.keys.nk = t.keys.nk
  | .valid => s.keys.valid = t.keys.valid

/-- The column "written by" of R37, read by command. -/
def writeSet : Op → List Register
  | .hinit => [.h, .bufLen, .nBlocks, .phase]
  | .hwrite => [.h, .buf, .bufLen, .nBlocks]
  | .hfinal => [.h, .buf, .bufLen, .phase]
  | .kdf => [.h, .buf, .bufLen, .nBlocks, .phase]
  | .kexp => [.rks, .nk, .valid]
  | .hread | .ksread | .subbytes | .invsubbytes | .shiftrows | .invshiftrows | .mixcolumns | .invmixcolumns
  | .addroundkey | .enc | .dec => []

/-- The column "read by" of R37, read by command. KDF has none here: it "reads no HashState before overwriting it". -/
def readSet : Op → List Register
  | .hwrite => [.h, .buf, .bufLen, .nBlocks, .phase]
  | .hfinal => [.h, .buf, .bufLen, .nBlocks, .phase]
  | .hread => [.h, .phase]
  | .ksread | .addroundkey | .enc | .dec => [.rks, .nk, .valid]
  | .hinit | .kdf | .kexp | .subbytes | .invsubbytes | .shiftrows | .invshiftrows | .mixcolumns | .invmixcolumns => []

/-! ## Errors (R221, R226) and phases (R103) -/

/-- The error a legal command must report: the first check of R226 that fails, with the causes of R221. -/
def firstFailingCheck (i : Instr) (s : State) : Option ErrorKind :=
  match i with
  | .hwrite data =>
    if s.hash.phase ≠ .absorbing then some .protocolError
    else if s.hash.nBlocks.toNat + (s.hash.bufLen.toNat + data.length) / 64 > 2 ^ 55 - 1 then some .lengthOverflow
    else none
  | .hfinal => if s.hash.phase ≠ .absorbing then some .protocolError else none
  | .hread => if s.hash.phase ≠ .finalized then some .protocolError else none
  | .kdf arg _ =>
    if arg.toNat > 32 then some .invalidKeyLength
    else if arg.toNat ∉ [16, 24, 32] then some .invalidKeySize
    else none
  | .kexp material => if material.length ∉ [16, 24, 32] then some .invalidKeySize else none
  | .ksread => if s.keys.valid = false then some .noSchedule else none
  | .addroundkey arg _ =>
    if s.keys.valid = false then some .noSchedule
    else if arg.toNat > s.keys.nk.toNat + 6 then some .badRound
    else none
  | .enc buffer =>
    if buffer.length % 16 ≠ 0 then some .shortBlock else if s.keys.valid = false then some .noSchedule else none
  | .dec buffer =>
    if buffer.length % 16 ≠ 0 then some .shortBlock else if s.keys.valid = false then some .noSchedule else none
  | .hinit => none
  | .subbytes _ => none
  | .invsubbytes _ => none
  | .shiftrows _ => none
  | .invshiftrows _ => none
  | .mixcolumns _ => none
  | .invmixcolumns _ => none

/-- The transition table of R103: the phase after the command, `none` for "error". The key-schedule, round and cipher
commands do not change `PHASE`. -/
def phaseTable : Phase → Op → Option Phase
  | .idle, .hinit => some .absorbing
  | .idle, .hwrite => none
  | .idle, .hfinal => none
  | .idle, .hread => none
  | .idle, .kdf => some .finalized
  | .absorbing, .hinit => some .absorbing
  | .absorbing, .hwrite => some .absorbing
  | .absorbing, .hfinal => some .finalized
  | .absorbing, .hread => none
  | .absorbing, .kdf => some .finalized
  | .finalized, .hinit => some .absorbing
  | .finalized, .hwrite => none
  | .finalized, .hfinal => none
  | .finalized, .hread => some .finalized
  | .finalized, .kdf => some .finalized
  | p, _ => some p

/-- `OUTLEN` on success (R75). -/
def outLen (i : Instr) (s : State) : Nat :=
  match i with
  | .hread => 32
  | .kdf arg _ => arg.toNat
  | .ksread => 16 * (s.keys.nk.toNat + 7)
  | .enc buffer => buffer.length
  | .dec buffer => buffer.length
  | .hinit => 0
  | .hwrite _ => 0
  | .hfinal => 0
  | .kexp _ => 0
  | .subbytes _ => 16
  | .invsubbytes _ => 16
  | .shiftrows _ => 16
  | .invshiftrows _ => 16
  | .mixcolumns _ => 16
  | .invmixcolumns _ => 16
  | .addroundkey _ _ => 16

/-! ## The cipher driver as a state machine (R191) -/

/-- "States: `Initial`, `Round(1..Nr-1)`, `FinalRound(Nr)`, `Done`" (R191). -/
inductive Driver where
  | initial
  | round (k : Nat)
  | finalRound
  | done
  deriving DecidableEq, Repr

/-- One transition of the driver while encrypting (R191, R192): the next driver state and the State's bytes. -/
def encDriver (k : KeyState) : Driver × Block → Driver × Block
  | (.initial, s) => (.round 1, addRoundKey k.rks s 0)
  | (.round r, s) =>
    (if r = k.rounds - 1 then .finalRound else .round (r + 1), addRoundKey k.rks (mixColumns (shiftRows (subBytes s))) r)
  | (.finalRound, s) => (.done, addRoundKey k.rks (shiftRows (subBytes s)) k.rounds)
  | (.done, s) => (.done, s)

/-- One transition of the driver while decrypting (R191, R193): the `j`-th full round uses round key `NR − j`. -/
def decDriver (k : KeyState) : Driver × Block → Driver × Block
  | (.initial, s) => (.round 1, addRoundKey k.rks s k.rounds)
  | (.round r, s) =>
    (if r = k.rounds - 1 then .finalRound else .round (r + 1),
      invMixColumns (addRoundKey k.rks (invSubBytes (invShiftRows s)) (k.rounds - r)))
  | (.finalRound, s) => (.done, addRoundKey k.rks (invSubBytes (invShiftRows s)) 0)
  | (.done, s) => (.done, s)

/-! ## Agreement on what is defined (R38, R251) -/

/-- The two hash states agree on `PHASE` and on every register bit that a rule may read in that phase (R21, R24, R38). -/
def HashState.Agree (a b : HashState) : Prop :=
  a.phase = b.phase ∧
  (a.phase = .absorbing →
    a.h = b.h ∧ a.bufLen = b.bufLen ∧ a.nBlocks = b.nBlocks ∧
      a.buf.toList.take a.bufLen.toNat = b.buf.toList.take b.bufLen.toNat) ∧
  (a.phase = .finalized → a.h = b.h)

/-- The two key states agree on `RKS_VALID`, and if it is 1 on `NK` and on the words a rule may read (R25 to R27). -/
def KeyState.Agree (a b : KeyState) : Prop :=
  a.valid = b.valid ∧
  (a.valid = true → a.nk = b.nk ∧ ∀ i, i < Config.scheduleWords a.nk.toNat → scheduleWord a.rks i = scheduleWord b.rks i)

/-- The two states agree on all that is defined: what the host has issued and received, the reset input, and the
registers as far as a rule may read them. They may differ in every bit the spec leaves without a defined value. -/
def State.Agree (s t : State) : Prop :=
  s.input = t.input ∧ s.output = t.output ∧ s.resetIn = t.resetIn ∧ s.hash.Agree t.hash ∧ s.keys.Agree t.keys

end Sys2Proof.Machine
end

