-- ==== Sys2Proof/Certificates/Slice0/Obligations.lean ====
section
/-!
DEFINITION. The statements for the provers, file by file of spec/. Each docstring names the rule it rests on. No
statement rests on a free value of Config or on the zeros of State.reset.
-/

open Sys2Proof Sys2Proof.Machine

/-! ## Encoding (30_encoding.md) -/

/-- Words written out from the opcode map and the vectors decode to the commands they stand for (R71, R75). -/
def Obligations.DecodeReadsTheSpecsWords : Prop :=
  decode [0x01, 0x00, 0x00, 0x00] = .command .hinit [] ∧
  decode [0x02, 0x00, 0x00, 0x03, 0x61, 0x62, 0x63] = .command (.hwrite [0x61, 0x62, 0x63]) [] ∧
  decode [0x03, 0x00, 0x00, 0x00, 0x04, 0x00, 0x00, 0x00] = .command .hfinal [0x04, 0x00, 0x00, 0x00] ∧
  decode [0x08, 0x10, 0x00, 0x02, 0x70, 0x77] = .command (.kdf 16 [0x70, 0x77]) [] ∧
  decode [0x11, 0x00, 0x00, 0x00] = .command .ksread [] ∧
  decode ([0x26, 0x0a, 0x00, 0x10] ++ List.replicate 16 0x00) = .command (.addroundkey 10 (Vector.replicate 16 0x00)) [] ∧
  decode ([0x31, 0x00, 0x00, 0x08] ++ List.replicate 8 0x00) = .command (.dec (List.replicate 8 0x00)) [] ∧
  decode [0x00, 0x00, 0x00, 0x00] = .illegal .unassignedOpcode [] ∧
  decode [0x02, 0x01, 0x00, 0x03, 0x61, 0x62, 0x63] = .illegal .argNotZero []

/-- Decoding the bytes of a well-formed command gives it back, whatever bytes follow (R70, R71, R73 to R75). -/
def Obligations.DecodeOfEncodeIsTheCommand : Prop :=
  ∀ (i : Instr) (rest : List Byte), i.wellFormed = true → decode (encode i ++ rest) = .command i rest

/-- A command that is decoded is well formed, and its encoding is the bytes it was read from: each word has one meaning. -/
def Obligations.EncodeOfDecodeIsTheBytes : Prop :=
  ∀ (bytes rest : List Byte) (i : Instr), decode bytes = .command i rest →
    i.wellFormed = true ∧ encode i ++ rest = bytes

/-- A header is the command of a row exactly when `h & mask == match`, and the rows do not overlap (R75). -/
def Obligations.HeaderIsTheCommandOfItsRow : Prop :=
  ∀ (opc arg : BitVec 8) (payload rest : List Byte), payload.length < 2 ^ 16 →
    (∀ op : Op, op.matchesHeader (opc ++ arg ++ BitVec.ofNat 16 payload.length) = true ↔
      ∃ i, i.op = op ∧
        decode (be32 (opc ++ arg ++ BitVec.ofNat 16 payload.length) ++ payload ++ rest) = .command i rest) ∧
    (∀ op op' : Op, op.matchesHeader (opc ++ arg ++ BitVec.ofNat 16 payload.length) = true →
      op'.matchesHeader (opc ++ arg ++ BitVec.ofNat 16 payload.length) = true → op = op')

/-- A header that matches no row is illegal: its `LEN` payload bytes are taken and discarded, the response is
`IllegalCommand`, and nothing else changes (R77). Every header is one of the sixteen commands or illegal. -/
def Obligations.IllegalHeaderIsDiscardedWithItsPayload : Prop :=
  ∀ (opc arg : BitVec 8) (payload rest : List Byte) (s : State), payload.length < 2 ^ 16 → s.resetIn = false →
    s.input = be32 (opc ++ arg ++ BitVec.ofNat 16 payload.length) ++ payload ++ rest →
    (∀ op : Op, op.matchesHeader (opc ++ arg ++ BitVec.ofNat 16 payload.length) = false) →
    step s = .next { s with input := rest, output := s.output ++ [.error .illegalCommand] }

/-- With the bytes of a well-formed command at the front of the stream, a step takes exactly those bytes and runs that
command; likewise for any bytes that decode to a command (R48, R70). -/
def Obligations.StepRunsTheDecodedCommand : Prop :=
  (∀ (s : State) (i : Instr) (rest : List Byte), s.resetIn = false → i.wellFormed = true → s.input = encode i ++ rest →
    step s = exec i { s with input := rest }) ∧
  (∀ (s : State) (i : Instr) (rest : List Byte), s.resetIn = false → decode s.input = .command i rest →
    step s = exec i { s with input := rest })

/-- While only a proper part of a command has been issued the engine waits, and waiting keeps all state (R234). That a
part of a command is not yet a command is the model's reading (log 2). -/
def Obligations.StepWaitsForAWholeCommand : Prop :=
  ∀ (s : State) (i : Instr) (tail : List Byte), s.resetIn = false → i.wellFormed = true → tail ≠ [] →
    s.input ++ tail = encode i → step s = .next s

/-! ## State and reset (10_state.md, 70_reset_and_hazards.md) -/

/-- The reset values the spec gives: `PHASE = IDLE`, `RKS_VALID = 0` (R38, R251). -/
def Obligations.ResetStateHasTheGivenValues : Prop :=
  State.reset.hash.phase = .idle ∧ State.reset.hash.phase.code = 0 ∧
  State.reset.keys.valid = false ∧ State.reset.keys.validBit = 0

/-- The invariants of R33 hold after reset. -/
def Obligations.ResetMeetsTheInvariants : Prop := State.reset.Inv

/-- Every step keeps the invariants of R33: a valid schedule has a legal `NK` and satisfies the recurrence, an open hash
holds a message so far, and a finished one a digest. -/
def Obligations.EveryStepKeepsTheInvariants : Prop :=
  ∀ s t : State, s.Inv → step s = .next t → t.Inv

/-- The reset event: `PHASE = IDLE`, `RKS_VALID = 0`, no response (R250, R251). That the bytes issued and not answered
are dropped and the reset input is released is the model's choice (log 5). -/
def Obligations.ResetEventTakesTheResetValues : Prop :=
  ∀ s : State, s.resetIn = true → ∃ t, step s = .next t ∧
    t.hash.phase = .idle ∧ t.keys.valid = false ∧ t.output = s.output ∧ t.input = [] ∧ t.resetIn = false

/-- `RKS_VALID` is cleared only by reset, and set only by a KEXP that succeeds (R27). -/
def Obligations.OnlyResetClearsTheSchedule : Prop :=
  (∀ s t : State, s.resetIn = false → s.keys.valid = true → step s = .next t → t.keys.valid = true) ∧
  (∀ (i : Instr) (s t : State), s.keys.valid = false → exec i s = .next t → t.keys.valid = true →
    ∃ material, i = .kexp material ∧ t.output = s.output ++ [.ok []])

/-- With `RKS_VALID = 0` and `PHASE = IDLE` every command that could read `RKS` or `H` out refuses, and whatever bits stay
in the registers, no later response depends on them (R252). -/
def Obligations.ResetLeavesNothingReadable : Prop :=
  (∀ (s : State) (i : Instr), s.keys.valid = false → i.op ∈ [.ksread, .addroundkey, .enc, .dec] →
    ∃ e, exec i s = .next { s with output := s.output ++ [.error e] }) ∧
  (∀ s : State, s.hash.phase = .idle →
    exec .hread s = .next { s with output := s.output ++ [.error .protocolError] }) ∧
  (∀ (s t : State), s.hash.phase = .idle → s.keys.valid = false → t.hash.phase = .idle → t.keys.valid = false →
    s.input = t.input → s.output = t.output → s.resetIn = t.resetIn →
    ∀ n, ∃ s' t', core.run n s = .next s' ∧ core.run n t = .next t' ∧ s'.output = t'.output)

/-- Bits without a defined value never reach a defined one: from two states that agree on all that is defined, a step
gives two states that agree on all that is defined, the responses among it (R21, R25, R38). -/
def Obligations.UndefinedBitsStayUnobserved : Prop :=
  ∀ s t : State, s.Agree t → ∃ s' t', step s = .next s' ∧ step t = .next t' ∧ s'.Agree t'

/-- A command writes only the registers that the table of R37 lists for it, takes nothing from the command stream, and puts
exactly one response at the end of the output stream. -/
def Obligations.CommandsWriteOnlyTheirRegisters : Prop :=
  ∀ (i : Instr) (s t : State), exec i s = .next t →
    (∀ r : Register, r ∉ writeSet i.op → r.same s t) ∧
    t.input = s.input ∧ (∃ a, t.output = s.output ++ [a]) ∧ t.resetIn = s.resetIn ∧ t.freeIdx = s.freeIdx

/-- Two commands with the same header and payload, started from states that agree on the registers the command's rule
reads, give the same response and the same writes (R36, R37; a word of `RKS` above the schedule is not written, R141). -/
def Obligations.SameReadsGiveSameResponseAndWrites : Prop :=
  ∀ (i : Instr) (s t : State), (∀ r ∈ readSet i.op, r.same s t) →
    ∃ (a : Response) (s' t' : State), exec i s = .next s' ∧ exec i t = .next t' ∧
      s'.output = s.output ++ [a] ∧ t'.output = t.output ++ [a] ∧
      (∀ out, a = .ok out →
        (∀ r ∈ writeSet i.op, r ≠ .rks → r.same s' t') ∧
        (i.op = .kexp → ∀ j, j < Config.scheduleWords s'.keys.nk.toNat →
          scheduleWord s'.keys.rks j = scheduleWord t'.keys.rks j))

/-! ## Storage (20_memory.md) -/

/-- The tables meet the definitions the spec gives for checking. `IV256[i]` and `K256[t]` are the first 32 bits of the
fractional part of the square root of the `i`-th prime (R56) and the cube root of the `t`-th (R57): with `n` the root's whole
part, `n · 2^32` plus the word is the largest number whose square, or cube, is at most the prime times `2^64`, or `2^96`.
`SBOX` is the field inverse followed by the affine map (R58), `INVSBOX` its inverse permutation (R59), `RCON` the powers of
`{02}` from index 1 (R60). -/
def Obligations.TablesMeetTheirDefinitions : Prop :=
  (∀ i : Fin 8, ∃ n : Nat,
    (n * 2 ^ 32 + iv256[i].toNat) ^ 2 ≤ Nat.nth Nat.Prime i.val * 2 ^ 64 ∧
    Nat.nth Nat.Prime i.val * 2 ^ 64 < (n * 2 ^ 32 + iv256[i].toNat + 1) ^ 2) ∧
  k256.length = 64 ∧
  (∀ t, t < 64 → ∃ n : Nat,
    (n * 2 ^ 32 + (k256.getD t 0).toNat) ^ 3 ≤ Nat.nth Nat.Prime t * 2 ^ 96 ∧
    Nat.nth Nat.Prime t * 2 ^ 96 < (n * 2 ^ 32 + (k256.getD t 0).toNat + 1) ^ 3) ∧
  (∀ x b : Byte, multiply x b = 0x01 ∨ (x = 0 ∧ b = 0) →
    sbox x = b ^^^ b.rotateLeft 1 ^^^ b.rotateLeft 2 ^^^ b.rotateLeft 3 ^^^ b.rotateLeft 4 ^^^ 0x63) ∧
  (∀ x : Byte, x ≠ 0 → ∃ b, multiply x b = 0x01) ∧
  (∀ x : Byte, invSbox (sbox x) = x ∧ sbox (invSbox x) = x) ∧
  rcon 1 = 0x01 ∧ (∀ j, 1 ≤ j → j < 10 → rcon (j + 1) = xtime (rcon j))

/-- Repeating any command but HWRITE and HFINAL with the same payload gives the same response and leaves the registers as
they were after the first (R49). -/
def Obligations.RepeatedCommandsAreIdempotent : Prop :=
  ∀ (i : Instr) (s t : State), i.op ∉ [.hwrite, .hfinal] → exec i s = .next t →
    ∃ (a : Response) (u : State), t.output = s.output ++ [a] ∧ exec i t = .next u ∧
      u.output = t.output ++ [a] ∧ u.hash = t.hash ∧ u.keys = t.keys

/-- Legal commands with an empty payload: HWRITE changes nothing, ENC and DEC emit nothing, KEXP is `InvalidKeySize`, KDF
derives the key of the empty password (R78). -/
def Obligations.EmptyPayloads : Prop :=
  (∀ s : State, s.hash.phase = .absorbing → exec (.hwrite []) s = .next { s with output := s.output ++ [.ok []] }) ∧
  (∀ s : State, s.keys.valid = true →
    exec (.enc []) s = .next { s with output := s.output ++ [.ok []] } ∧
    exec (.dec []) s = .next { s with output := s.output ++ [.ok []] }) ∧
  (∀ s : State, exec (.kexp []) s = .next { s with output := s.output ++ [.error .invalidKeySize] }) ∧
  (∀ (s : State) (arg : BitVec 8), arg.toNat ∈ [16, 24, 32] → ∃ hs : HashState,
    exec (.kdf arg []) s = .next { s with hash := hs, output := s.output ++ [.ok ((sha256 []).take arg.toNat)] })

/-! ## HashEngine (40_hash_engine.md) -/

/-- The phase after each command, and `ProtocolError` with no state change where the table says "error" (R103). A KDF or
HWRITE that fails for another reason than the phase is not a row of the table. The key-schedule, round and cipher
commands neither read nor change `PHASE`. -/
def Obligations.PhaseTransitionTable : Prop :=
  (∀ (i : Instr) (s t : State), exec i s = .next t →
    (phaseTable s.hash.phase i.op = none → t = { s with output := s.output ++ [.error .protocolError] }) ∧
    (∀ p out, phaseTable s.hash.phase i.op = some p → t.output = s.output ++ [.ok out] → t.hash.phase = p) ∧
    (∀ p e, phaseTable s.hash.phase i.op = some p → t.output = s.output ++ [.error e] →
      e ≠ .protocolError ∧ t.hash.phase = s.hash.phase)) ∧
  (∀ (i : Instr) (s : State) (p : Phase), i.op ∉ [.hinit, .hwrite, .hfinal, .hread, .kdf] →
    ∃ t : State, exec i s = .next t ∧ t.hash.phase = s.hash.phase ∧
      exec i { s with hash := { s.hash with phase := p } } = .next { t with hash := { t.hash with phase := p } })

/-- HINIT: `H` takes the initial words, the counts 0, `PHASE` ABSORBING; `BUF` and everything else stay; no output, no
error. A header with that opcode and another `ARG` or `LEN` is no HINIT but illegal. Two HINIT in a row leave the registers
as one does (R104, R105). -/
def Obligations.HinitStartsAMessage : Prop :=
  Instr.hinit.header = 0x01000000 ∧
  (∀ (arg : BitVec 8) (payload rest : List Byte), payload.length < 2 ^ 16 → arg ≠ 0 ∨ payload ≠ [] → ∃ e,
    decode (be32 ((0x01 : BitVec 8) ++ arg ++ BitVec.ofNat 16 payload.length) ++ payload ++ rest) = .illegal e rest) ∧
  (∀ s : State, exec .hinit s = .next { s with
    hash :=
      { h := #v[0x6a09e667, 0xbb67ae85, 0x3c6ef372, 0xa54ff53a, 0x510e527f, 0x9b05688c, 0x1f83d9ab, 0x5be0cd19]
        buf := s.hash.buf
        bufLen := 0
        nBlocks := 0
        phase := .absorbing }
    output := s.output ++ [.ok []] }) ∧
  (∀ s t u : State, exec .hinit s = .next t → exec .hinit t = .next u → u.hash = t.hash ∧ u.keys = t.keys)

/-- HWRITE while ABSORBING and below the limit: the buffered bytes joined to the chunk are compressed 64 at a time, in
order, the remainder stays in `BUF`, the counts follow, and nothing else changes (R107). -/
def Obligations.HwriteAbsorbsTheChunk : Prop :=
  ∀ (s : State) (data : List Byte), s.hash.phase = .absorbing →
    s.hash.nBlocks.toNat + (s.hash.bufLen.toNat + data.length) / 64 ≤ 2 ^ 55 - 1 →
    ∃ hs : HashState,
      exec (.hwrite data) s = .next { s with hash := hs, output := s.output ++ [.ok []] } ∧
      hs.phase = .absorbing ∧
      hs.bufLen.toNat = (s.hash.bufLen.toNat + data.length) % 64 ∧
      hs.nBlocks.toNat = s.hash.nBlocks.toNat + (s.hash.bufLen.toNat + data.length) / 64 ∧
      hs.h = compressAll s.hash.h (s.hash.buf.toList.take s.hash.bufLen.toNat ++ data) ∧
      hs.buf.toList.take hs.bufLen.toNat =
        (s.hash.buf.toList.take s.hash.bufLen.toNat ++ data).drop
          (64 * ((s.hash.bufLen.toNat + data.length) / 64))

/-- HWRITE that would carry the count past `2^55 − 1` raises `LengthOverflow` and writes nothing (R108). -/
def Obligations.HwriteLengthOverflow : Prop :=
  ∀ (s : State) (data : List Byte), s.hash.phase = .absorbing →
    2 ^ 55 - 1 < s.hash.nBlocks.toNat + (s.hash.bufLen.toNat + data.length) / 64 →
    exec (.hwrite data) s = .next { s with output := s.output ++ [.error .lengthOverflow] }

/-- Chunk invariance: writing chunks one after the other leaves the same `H`, `BUF[0..BUFLEN]`, `BUFLEN` and `NBLOCKS` as
writing them joined (R113), and the same `PHASE`, as long as the joined chunk does not overflow the count (R108). That the
bytes of `BUF` at `BUFLEN` and above agree too is no rule of the spec, which gives them no defined value (R21): it is the
model's choice (log 17). -/
def Obligations.HwriteIsChunkInvariant : Prop :=
  ∀ (s : State) (chunks : List (List Byte)), s.hash.phase = .absorbing →
    s.hash.nBlocks.toNat + (s.hash.bufLen.toNat + chunks.flatten.length) / 64 ≤ 2 ^ 55 - 1 →
    ∃ t u : State, execAll (chunks.map .hwrite) s = .next t ∧ exec (.hwrite chunks.flatten) s = .next u ∧
      t.hash = u.hash ∧ t.keys = u.keys ∧ t.output = s.output ++ List.replicate chunks.length (.ok [])

/-- HFINAL while ABSORBING: the buffered bytes are padded with `0x80`, zeros and the 64-bit bit length, most significant byte
first, one block or two are compressed, `NBLOCKS` stays, `BUFLEN` becomes 0, `BUF` holds the last padded block, `PHASE` becomes
FINALIZED; in another phase `ProtocolError` (R109, R110). -/
def Obligations.HfinalPadsAndFinishes : Prop :=
  (∀ s : State, s.hash.phase = .absorbing →
    ∃ hs : HashState, ∃ padded : List Byte,
      padded = s.hash.buf.toList.take s.hash.bufLen.toNat ++
        padding s.hash.bufLen.toNat (512 * s.hash.nBlocks.toNat + 8 * s.hash.bufLen.toNat) ∧
      padded.length = (if s.hash.bufLen.toNat ≤ 55 then 64 else 128) ∧
      (∀ j : Fin 8, padded[padded.length - 8 + j.val]? = some
        ((BitVec.ofNat 64 (512 * s.hash.nBlocks.toNat + 8 * s.hash.bufLen.toNat)).extractLsb' (56 - 8 * j.val) 8)) ∧
      exec .hfinal s = .next { s with hash := hs, output := s.output ++ [.ok []] } ∧
      hs.h = compressAll s.hash.h padded ∧
      hs.buf.toList = padded.drop (padded.length - 64) ∧
      hs.nBlocks = s.hash.nBlocks ∧ hs.bufLen = 0 ∧ hs.phase = .finalized) ∧
  (∀ s : State, s.hash.phase ≠ .absorbing →
    exec .hfinal s = .next { s with output := s.output ++ [.error .protocolError] })

/-- HREAD in phase FINALIZED emits the eight chaining words, each most significant byte first, and changes no register;
in another phase `ProtocolError` (R111, R42 (a)). -/
def Obligations.HreadEmitsTheDigest : Prop :=
  (∀ s : State, s.hash.phase = .finalized → ∃ out : List Byte,
    exec .hread s = .next { s with output := s.output ++ [.ok out] } ∧ out.length = 32 ∧
    ∀ (i : Fin 8) (j : Fin 4), out[4 * i.val + j.val]? = some ((s.hash.h[i]).extractLsb' (24 - 8 * j.val) 8)) ∧
  (∀ s : State, s.hash.phase ≠ .finalized →
    exec .hread s = .next { s with output := s.output ++ [.error .protocolError] })

/-- The message schedule of TRANSFORM: sixteen big-endian words of the block, then the recurrence (R112, R42 (c)). -/
def Obligations.MessageScheduleRecurrence : Prop :=
  ∀ block : List Byte, block.length = 64 →
    (messageSchedule block).length = 64 ∧
    (∀ t, t < 16 → (messageSchedule block).getD t 0 =
      block.getD (4 * t) 0 ++ block.getD (4 * t + 1) 0 ++ block.getD (4 * t + 2) 0 ++ block.getD (4 * t + 3) 0) ∧
    (∀ t, 16 ≤ t → t < 64 → (messageSchedule block).getD t 0 =
      smallSigma1 ((messageSchedule block).getD (t - 2) 0) + (messageSchedule block).getD (t - 7) 0 +
        smallSigma0 ((messageSchedule block).getD (t - 15) 0) + (messageSchedule block).getD (t - 16) 0)

/-- The functions of R102, on `rotr` as R100 defines it: the low bits dropped by the right shift come back on top, so bit `i`
of the result is bit `i + n` of the word, counted modulo 32. `Ch` chooses bit by bit, `Maj` is the majority of three bits,
and the four sigmas are XORs of rotations, two of them with a logical shift. -/
def Obligations.HashWordFunctions : Prop :=
  ∀ x y z : Word,
    (∀ n ∈ [2, 6, 7, 11, 13, 17, 18, 19, 22, 25],
      (rotr x n).toNat = (x.toNat / 2 ^ n) ||| (x.toNat * 2 ^ (32 - n) % 2 ^ 32) ∧
      ∀ i, i < 32 → (rotr x n).getLsbD i = x.getLsbD ((i + n) % 32)) ∧
    (∀ i, (ch x y z).getLsbD i = if x.getLsbD i then y.getLsbD i else z.getLsbD i) ∧
    (∀ i, (maj x y z).getLsbD i =
      ((x.getLsbD i && y.getLsbD i) || (x.getLsbD i && z.getLsbD i) || (y.getLsbD i && z.getLsbD i))) ∧
    bigSigma0 x = x.rotateRight 2 ^^^ x.rotateRight 13 ^^^ x.rotateRight 22 ∧
    bigSigma1 x = x.rotateRight 6 ^^^ x.rotateRight 11 ^^^ x.rotateRight 25 ∧
    smallSigma0 x = x.rotateRight 7 ^^^ x.rotateRight 18 ^^^ (x >>> 3) ∧
    smallSigma1 x = x.rotateRight 17 ^^^ x.rotateRight 19 ^^^ (x >>> 10)

/-- TRANSFORM of a 64-byte block from chaining words `h` (R112): there are message words `w 0 .. w 63`, the block's sixteen
big-endian words and then the recurrence, and working words `v 0 .. v 64`, in the order `a` to `h`, with `v 0` the chaining
words and each `v (t + 1)` the round update of `v t` with `K256[t]` and `w t`; the new chaining words are the old ones plus
`v 64`, word by word modulo 2^32. TRANSFORM writes `H` only. -/
def Obligations.TransformRunsTheRounds : Prop :=
  (∀ (h : Vector Word 8) (block : List Byte), block.length = 64 → ∃ (w : Nat → Word) (v : Nat → Vector Word 8),
    (∀ t, t < 16 →
      w t = block.getD (4 * t) 0 ++ block.getD (4 * t + 1) 0 ++ block.getD (4 * t + 2) 0 ++ block.getD (4 * t + 3) 0) ∧
    (∀ t, 16 ≤ t → t < 64 → w t = smallSigma1 (w (t - 2)) + w (t - 7) + smallSigma0 (w (t - 15)) + w (t - 16)) ∧
    v 0 = h ∧
    (∀ t, t < 64 → ∀ a b c d e f g h' t1 t2 : Word, v t = #v[a, b, c, d, e, f, g, h'] →
      t1 = h' + bigSigma1 e + ch e f g + k256.getD t 0 + w t → t2 = bigSigma0 a + maj a b c →
      v (t + 1) = #v[t1 + t2, a, b, c, d + t1, e, f, g]) ∧
    ∀ i : Fin 8, (compress h block)[i] = h[i] + (v 64)[i]) ∧
  (∀ hs : HashState, transform hs = { hs with h := compress hs.h hs.buf.toList })

/-- HINIT, any split of a message of fewer than 2^61 bytes into HWRITE commands, HFINAL, HREAD emits SHA-256 of the
message: the digest of the padded message compressed block by block from `IV256` (R114). -/
def Obligations.HashCommandsComputeSha256 : Prop :=
  ∀ (s : State) (chunks : List (List Byte)), (∀ c ∈ chunks, c.length < 2 ^ 16) → chunks.flatten.length < 2 ^ 61 →
    ∃ t : State, execAll (.hinit :: chunks.map .hwrite ++ [.hfinal, .hread]) s = .next t ∧
      t.output = s.output ++ List.replicate (chunks.length + 2) (.ok []) ++ [.ok (sha256 chunks.flatten)]

/-! ## KeyDerivation (41_key_derivation.md) -/

/-- KDF with `L` of 16, 24 or 32 emits the first `L` bytes of SHA-256 of the password bytes, leaves the full digest in `H`
and `PHASE` FINALIZED, in every phase and whatever the state before, and changes nothing else (R130). -/
def Obligations.KdfEmitsTheTruncatedDigest : Prop :=
  ∀ (s : State) (arg : BitVec 8) (password : List Byte), arg.toNat ∈ [16, 24, 32] → password.length < 2 ^ 16 →
    ∃ hs : HashState,
      exec (.kdf arg password) s =
        .next { s with hash := hs, output := s.output ++ [.ok ((sha256 password).take arg.toNat)] } ∧
      digestBytes hs.h = sha256 password ∧ hs.phase = .finalized ∧ hs.bufLen = 0

/-- KDF is equal to the host doing HINIT, HWRITE, HFINAL, HREAD itself and keeping the first `L` bytes; those are a prefix
of one digest, which depends on the password alone, not on the state before (R133). -/
def Obligations.KdfEqualsTheHostsSequence : Prop :=
  ∀ (s : State) (arg : BitVec 8) (password : List Byte), arg.toNat ∈ [16, 24, 32] → password.length < 2 ^ 16 →
    ∃ (t u : State) (d : List Byte), exec (.kdf arg password) s = .next t ∧
      execAll [.hinit, .hwrite password, .hfinal, .hread] s = .next u ∧
      t.hash = u.hash ∧ t.keys = u.keys ∧ d = sha256 password ∧
      u.output = s.output ++ [.ok [], .ok [], .ok [], .ok d] ∧ t.output = s.output ++ [.ok (d.take arg.toNat)]

/-- KDF: `L` from 33 to 255 is `InvalidKeyLength`, every other `L` outside 16, 24, 32 is `InvalidKeySize`; nothing else
changes (R132). -/
def Obligations.KdfRejectsOtherLengths : Prop :=
  ∀ (s : State) (arg : BitVec 8) (password : List Byte),
    (arg.toNat > 32 →
      exec (.kdf arg password) s = .next { s with output := s.output ++ [.error .invalidKeyLength] }) ∧
    (arg.toNat ≤ 32 → arg.toNat ∉ [16, 24, 32] →
      exec (.kdf arg password) s = .next { s with output := s.output ++ [.error .invalidKeySize] })

/-! ## KeySchedule (42_key_schedule.md) -/

/-- KEXP of 16, 24 or 32 bytes: `NK <- LEN div 4`, the first `NK` words are the key, every later word of the schedule
satisfies the recurrence, the words above stay, `RKS_VALID <- 1`, and nothing else changes; every other length is
`InvalidKeySize` and changes nothing (R141, R142). -/
def Obligations.KexpBuildsTheSchedule : Prop :=
  (∀ (s : State) (material : List Byte), material.length ∈ [16, 24, 32] → ∃ k : KeyState,
    exec (.kexp material) s = .next { s with keys := k, output := s.output ++ [.ok []] } ∧
    k.valid = true ∧ k.nk.toNat = material.length / 4 ∧
    (∀ (i : Nat) (j : Fin 4), i < material.length / 4 →
      (scheduleWord k.rks i)[j] = material.getD (4 * i + j.val) 0) ∧
    Recurrence (material.length / 4) k.rks ∧
    (∀ i, Config.scheduleWords (material.length / 4) ≤ i → scheduleWord k.rks i = scheduleWord s.keys.rks i)) ∧
  (∀ (s : State) (material : List Byte), material.length ∉ [16, 24, 32] →
    exec (.kexp material) s = .next { s with output := s.output ++ [.error .invalidKeySize] })

/-- `temp` of the expansion, branch by branch: rotate, substitute, constant into byte 0; substitute only; unchanged
(R142). -/
def Obligations.ScheduleTempBranches : Prop :=
  ∀ (nk i : Nat) (w : Column), legalNk nk →
    (i % nk = 0 → scheduleTemp nk i w = #v[sbox w[1] ^^^ rcon (i / nk), sbox w[2], sbox w[3], sbox w[0]]) ∧
    (i % nk ≠ 0 → nk = 8 → i % nk = 4 → scheduleTemp nk i w = #v[sbox w[0], sbox w[1], sbox w[2], sbox w[3]]) ∧
    (i % nk ≠ 0 → ¬(nk = 8 ∧ i % nk = 4) → scheduleTemp nk i w = w)

/-- A built schedule has `4·(NK+7)` words, the first `NK` of them the KeyMaterial, each later one fixed by the words `i − 1`
and `i − NK`; it is a function of the KeyMaterial alone: two KEXP of the same key give the same schedule, whatever the states
before (R143). -/
def Obligations.SameKeySameSchedule : Prop :=
  ∀ (s t s' t' : State) (material : List Byte), material.length ∈ [16, 24, 32] →
    exec (.kexp material) s = .next s' → exec (.kexp material) t = .next t' →
    s'.keys.nk = t'.keys.nk ∧ s'.keys.nk.toNat = material.length / 4 ∧ s'.keys.valid = true ∧ t'.keys.valid = true ∧
    (∀ i, i < material.length / 4 → (scheduleWord s'.keys.rks i).toList = (material.drop (4 * i)).take 4) ∧
    Recurrence s'.keys.nk.toNat s'.keys.rks ∧
    ∀ i, i < Config.scheduleWords (material.length / 4) → scheduleWord s'.keys.rks i = scheduleWord t'.keys.rks i

/-- KSREAD with a schedule emits its `16·(NK+7)` bytes, word 0 byte 0 first, and changes no register; without one
`NoSchedule`. After a KEXP its first `4·NK` bytes are the KeyMaterial (R146). -/
def Obligations.KsreadEmitsTheSchedule : Prop :=
  (∀ s : State, s.keys.valid = true → legalNk s.keys.nk.toNat → ∃ out : List Byte,
    exec .ksread s = .next { s with output := s.output ++ [.ok out] } ∧
    out.length = 16 * (s.keys.nk.toNat + 7) ∧
    ∀ (i : Nat) (j : Fin 4), i < 4 * (s.keys.nk.toNat + 7) →
      out[4 * i + j.val]? = some ((scheduleWord s.keys.rks i)[j])) ∧
  (∀ s : State, s.keys.valid = false →
    exec .ksread s = .next { s with output := s.output ++ [.error .noSchedule] }) ∧
  (∀ (s : State) (material : List Byte), material.length ∈ [16, 24, 32] →
    ∃ (t : State) (out : List Byte), execAll [.kexp material, .ksread] s = .next t ∧
      t.output = s.output ++ [.ok [], .ok out] ∧ out.take material.length = material ∧
      out.length = 4 * material.length + 112)

/-! ## RoundEngine (43_round_engine.md) -/

/-- `multiply` is the sum of `x · {02}^i` over the bits `i` set in `y`; it is commutative, associative, distributes over XOR,
has `{01}` as identity and takes 0 to 0; and by the constants the hardware uses it is the sums of `xtime` given (R162). -/
def Obligations.FieldMultiplicationLaws : Prop :=
  ∀ x y z : Byte,
    multiply x y = (List.range 8).foldl (fun r i => if y.getLsbD i then r ^^^ xtime^[i] x else r) 0x00 ∧
    multiply x y = multiply y x ∧
    multiply (multiply x y) z = multiply x (multiply y z) ∧
    multiply x (y ^^^ z) = multiply x y ^^^ multiply x z ∧
    multiply x 0x01 = x ∧ multiply x 0x00 = 0x00 ∧
    multiply x 0x02 = xtime x ∧ multiply x 0x03 = xtime x ^^^ x ∧
    multiply x 0x09 = xtime (xtime (xtime x)) ^^^ x ∧
    multiply x 0x0b = xtime (xtime (xtime x)) ^^^ xtime x ^^^ x ∧
    multiply x 0x0d = xtime (xtime (xtime x)) ^^^ xtime (xtime x) ^^^ x ∧
    multiply x 0x0e = xtime (xtime (xtime x)) ^^^ xtime (xtime x) ^^^ xtime x

/-- SUBBYTES and INVSUBBYTES: in every state, the byte-wise table lookup is emitted and no register changes (R166, R167). -/
def Obligations.SubBytesCommands : Prop :=
  (∀ (s : State) (b : Block), ∃ out : Block,
    exec (.subbytes b) s = .next { s with output := s.output ++ [.ok out.toList] } ∧
    ∀ k : Fin 16, out[k] = sbox b[k]) ∧
  (∀ (s : State) (b : Block), ∃ out : Block,
    exec (.invsubbytes b) s = .next { s with output := s.output ++ [.ok out.toList] } ∧
    ∀ k : Fin 16, out[k] = invSbox b[k])

/-- SHIFTROWS and INVSHIFTROWS: in every state, row `r` is rotated left, or right, by `r` places and no register changes
(R168, R169). -/
def Obligations.ShiftRowsCommands : Prop :=
  (∀ (s : State) (b : Block), ∃ out : Block,
    exec (.shiftrows b) s = .next { s with output := s.output ++ [.ok out.toList] } ∧
    out = #v[b[0], b[5], b[10], b[15], b[4], b[9], b[14], b[3], b[8], b[13], b[2], b[7], b[12], b[1], b[6], b[11]]) ∧
  (∀ (s : State) (b : Block), ∃ out : Block,
    exec (.invshiftrows b) s = .next { s with output := s.output ++ [.ok out.toList] } ∧
    out = #v[b[0], b[13], b[10], b[7], b[4], b[1], b[14], b[11], b[8], b[5], b[2], b[15], b[12], b[9], b[6], b[3]])

/-- MIXCOLUMNS and INVMIXCOLUMNS: in every state, each column is multiplied by the matrix and no register changes
(R171, R172). -/
def Obligations.MixColumnsCommands : Prop :=
  (∀ (s : State) (b : Block), ∃ out : Block,
    exec (.mixcolumns b) s = .next { s with output := s.output ++ [.ok out.toList] } ∧
    ∀ (c : Fin 4) (a0 a1 a2 a3 : Byte), stateColumn b c = #v[a0, a1, a2, a3] → stateColumn out c =
      #v[multiply 0x02 a0 ^^^ multiply 0x03 a1 ^^^ a2 ^^^ a3, a0 ^^^ multiply 0x02 a1 ^^^ multiply 0x03 a2 ^^^ a3,
         a0 ^^^ a1 ^^^ multiply 0x02 a2 ^^^ multiply 0x03 a3, multiply 0x03 a0 ^^^ a1 ^^^ a2 ^^^ multiply 0x02 a3]) ∧
  (∀ (s : State) (b : Block), ∃ out : Block,
    exec (.invmixcolumns b) s = .next { s with output := s.output ++ [.ok out.toList] } ∧
    ∀ (c : Fin 4) (a0 a1 a2 a3 : Byte), stateColumn b c = #v[a0, a1, a2, a3] → stateColumn out c =
      #v[multiply 0x0e a0 ^^^ multiply 0x0b a1 ^^^ multiply 0x0d a2 ^^^ multiply 0x09 a3,
         multiply 0x09 a0 ^^^ multiply 0x0e a1 ^^^ multiply 0x0b a2 ^^^ multiply 0x0d a3,
         multiply 0x0d a0 ^^^ multiply 0x09 a1 ^^^ multiply 0x0e a2 ^^^ multiply 0x0b a3,
         multiply 0x0b a0 ^^^ multiply 0x0d a1 ^^^ multiply 0x09 a2 ^^^ multiply 0x0e a3])

/-- The pairs of transforms are inverses of each other, in both orders (R164). -/
def Obligations.TransformsAreInverses : Prop :=
  ∀ b : Block,
    invSubBytes (subBytes b) = b ∧ subBytes (invSubBytes b) = b ∧
    invShiftRows (shiftRows b) = b ∧ shiftRows (invShiftRows b) = b ∧
    invMixColumns (mixColumns b) = b ∧ mixColumns (invMixColumns b) = b

/-- SubBytes commutes with ShiftRows, and likewise the inverses; MixColumns commutes neither with SubBytes nor with
AddRoundKey (R165). -/
def Obligations.WhichTransformsCommute : Prop :=
  (∀ b : Block, shiftRows (subBytes b) = subBytes (shiftRows b)) ∧
  (∀ b : Block, invShiftRows (invSubBytes b) = invSubBytes (invShiftRows b)) ∧
  (∃ b : Block, mixColumns (subBytes b) ≠ subBytes (mixColumns b)) ∧
  (∃ (b : Block) (k : KeyState) (r : Nat), r ≤ 10 ∧
    mixColumns (addRoundKey k.rks b r) ≠ addRoundKey k.rks (mixColumns b) r)

/-- Each column is transformed by itself, and both column transforms are linear over GF(2) (R173). -/
def Obligations.MixColumnsIsColumnwiseAndLinear : Prop :=
  (∀ (a b : Block) (c : Fin 4), stateColumn a c = stateColumn b c →
    stateColumn (mixColumns a) c = stateColumn (mixColumns b) c ∧
    stateColumn (invMixColumns a) c = stateColumn (invMixColumns b) c) ∧
  (∀ a b x y : Block, x = Vector.zipWith (· ^^^ ·) (mixColumns a) (mixColumns b) →
    y = Vector.zipWith (· ^^^ ·) (invMixColumns a) (invMixColumns b) →
    mixColumns (Vector.zipWith (· ^^^ ·) a b) = x ∧ invMixColumns (Vector.zipWith (· ^^^ ·) a b) = y)

/-- ADDROUNDKEY: `NoSchedule` without a schedule, then `BadRound` above `NK + 6`, else each byte is XORed with its byte of
round key `r`; no register changes; applied twice it gives the block back; the all-zero block gives the round key (R174). -/
def Obligations.AddRoundKeyCommand : Prop :=
  ∀ (s : State) (arg : BitVec 8) (b : Block),
    (s.keys.valid = false →
      exec (.addroundkey arg b) s = .next { s with output := s.output ++ [.error .noSchedule] }) ∧
    (s.keys.valid = true → s.keys.nk.toNat + 6 < arg.toNat →
      exec (.addroundkey arg b) s = .next { s with output := s.output ++ [.error .badRound] }) ∧
    (s.keys.valid = true → arg.toNat ≤ s.keys.nk.toNat + 6 → ∃ out : Block,
      exec (.addroundkey arg b) s = .next { s with output := s.output ++ [.ok out.toList] } ∧
      (∀ (c j : Fin 4), out[4 * c.val + j.val]'(by omega) =
        b[4 * c.val + j.val]'(by omega) ^^^ (scheduleWord s.keys.rks (4 * arg.toNat + c.val))[j]) ∧
      exec (.addroundkey arg out) s = .next { s with output := s.output ++ [.ok b.toList] } ∧
      (b = Vector.replicate 16 0 → out = roundKey s.keys.rks arg.toNat))

/-! ## CipherDriver (44_cipher_driver.md) -/

/-- ENC and DEC: a length that is no multiple of 16 is `ShortBlock` for the whole command, schedule or not; else without
a schedule `NoSchedule`; else output bytes `16i .. 16i+15` are the transformed block `i` and the output is as long as the
input. No register changes (R194 to R196). -/
def Obligations.CipherCommandsTransformEveryBlock : Prop :=
  (∀ (s : State) (buffer : List Byte), s.keys.valid = true → buffer.length % 16 = 0 → ∃ out : List Byte,
    exec (.enc buffer) s = .next { s with output := s.output ++ [.ok out] } ∧ out.length = buffer.length ∧
    ∀ (i : Nat) (b : Block), i < buffer.length / 16 → b.toList = (buffer.drop (16 * i)).take 16 →
      (out.drop (16 * i)).take 16 = (encryptBlock s.keys b).toList) ∧
  (∀ (s : State) (buffer : List Byte), s.keys.valid = true → buffer.length % 16 = 0 → ∃ out : List Byte,
    exec (.dec buffer) s = .next { s with output := s.output ++ [.ok out] } ∧ out.length = buffer.length ∧
    ∀ (i : Nat) (b : Block), i < buffer.length / 16 → b.toList = (buffer.drop (16 * i)).take 16 →
      (out.drop (16 * i)).take 16 = (decryptBlock s.keys b).toList) ∧
  (∀ (s : State) (buffer : List Byte), buffer.length % 16 ≠ 0 →
    exec (.enc buffer) s = .next { s with output := s.output ++ [.error .shortBlock] } ∧
    exec (.dec buffer) s = .next { s with output := s.output ++ [.error .shortBlock] }) ∧
  (∀ (s : State) (buffer : List Byte), buffer.length % 16 = 0 → s.keys.valid = false →
    exec (.enc buffer) s = .next { s with output := s.output ++ [.error .noSchedule] } ∧
    exec (.dec buffer) s = .next { s with output := s.output ++ [.error .noSchedule] })

/-- The driver's states for one block: `Initial`, `Round(1..NR−1)`, `FinalRound`, `Done`; after `NR + 1` transitions the
State is the output block; and no data value steers the sequence (R191, R192). -/
def Obligations.DriverRunsTheRounds : Prop :=
  ∀ (k : KeyState) (b b' : Block),
    ((encDriver k)^[k.rounds + 1]) (.initial, b) = (.done, encryptBlock k b) ∧
    ((decDriver k)^[k.rounds + 1]) (.initial, b) = (.done, decryptBlock k b) ∧
    (∀ n, 1 ≤ n → n < k.rounds → (((encDriver k)^[n]) (.initial, b)).1 = .round n ∧
      (((decDriver k)^[n]) (.initial, b)).1 = .round n) ∧
    (((encDriver k)^[k.rounds]) (.initial, b)).1 = .finalRound ∧
    (((decDriver k)^[k.rounds]) (.initial, b)).1 = .finalRound ∧
    (∀ n, (((encDriver k)^[n]) (.initial, b)).1 = (((encDriver k)^[n]) (.initial, b')).1 ∧
      (((decDriver k)^[n]) (.initial, b)).1 = (((decDriver k)^[n]) (.initial, b')).1)

/-- DecryptBlock undoes EncryptBlock and the other way round, for every block and every schedule; and so DEC undoes ENC and
ENC undoes DEC over whole buffers (R193, R196). -/
def Obligations.DecryptionUndoesEncryption : Prop :=
  (∀ (k : KeyState) (b : Block), decryptBlock k (encryptBlock k b) = b ∧ encryptBlock k (decryptBlock k b) = b) ∧
  (∀ (s : State) (buffer : List Byte), s.keys.valid = true → buffer.length % 16 = 0 → ∃ out : List Byte,
    exec (.enc buffer) s = .next { s with output := s.output ++ [.ok out] } ∧
    exec (.dec out) s = .next { s with output := s.output ++ [.ok buffer] }) ∧
  (∀ (s : State) (buffer : List Byte), s.keys.valid = true → buffer.length % 16 = 0 → ∃ out : List Byte,
    exec (.dec buffer) s = .next { s with output := s.output ++ [.ok out] } ∧
    exec (.enc out) s = .next { s with output := s.output ++ [.ok buffer] })

/-- Blocks are independent: one ENC, or DEC, of a buffer emits the same bytes as the commands of any split of it into whole
blocks, joined in order (R197). -/
def Obligations.BlocksAreIndependent : Prop :=
  ∀ (s : State) (pieces : List (List Byte)), s.keys.valid = true → (∀ p ∈ pieces, p.length % 16 = 0) →
    (∃ outs : List (List Byte),
      exec (.enc pieces.flatten) s = .next { s with output := s.output ++ [.ok outs.flatten] } ∧
      execAll (pieces.map .enc) s = .next { s with output := s.output ++ outs.map .ok }) ∧
    (∃ outs : List (List Byte),
      exec (.dec pieces.flatten) s = .next { s with output := s.output ++ [.ok outs.flatten] } ∧
      execAll (pieces.map .dec) s = .next { s with output := s.output ++ outs.map .ok })

/-- From a key to a file and back: after KEXP of a legal key, ENC of whole blocks and DEC of what it emitted give the
buffer back (R142, R195, R196). -/
def Obligations.KeyThenEncryptThenDecrypt : Prop :=
  ∀ (s : State) (material buffer : List Byte), material.length ∈ [16, 24, 32] → buffer.length % 16 = 0 →
    ∃ (out : List Byte) (t : State),
      execAll [.kexp material, .enc buffer, .dec out] s = .next t ∧ out.length = buffer.length ∧
      t.output = s.output ++ [.ok [], .ok out, .ok buffer] ∧ t.hash = s.hash

/-! ## Errors (60_exceptions.md) -/

/-- An error ends the command: the response is the error's code (R221) with `OUTLEN = 0`, and the state after equals the
state before in everything but the response; whatever error a step answers, `IllegalCommand` too, no register changes
(R224). -/
def Obligations.ErrorsChangeNothing : Prop :=
  (∀ (i : Instr) (s t : State) (e : ErrorKind), exec i s = .next t → t.output = s.output ++ [.error e] →
    t = { s with output := s.output ++ [.error e] }) ∧
  (∀ (s t : State) (e : ErrorKind), step s = .next t → t.output = s.output ++ [.error e] →
    t.hash = s.hash ∧ t.keys = s.keys) ∧
  (Response.error .invalidKeySize).bytes = [0x01, 0, 0, 0] ∧ (Response.error .invalidKeyLength).bytes = [0x02, 0, 0, 0] ∧
  (Response.error .shortBlock).bytes = [0x03, 0, 0, 0] ∧ (Response.error .ioFailure).bytes = [0x04, 0, 0, 0] ∧
  (Response.error .illegalCommand).bytes = [0x10, 0, 0, 0] ∧ (Response.error .protocolError).bytes = [0x11, 0, 0, 0] ∧
  (Response.error .noSchedule).bytes = [0x12, 0, 0, 0] ∧ (Response.error .badRound).bytes = [0x13, 0, 0, 0] ∧
  (Response.error .lengthOverflow).bytes = [0x14, 0, 0, 0]

/-- The decoder's check comes first: an illegal header is answered `IllegalCommand`, whatever the state. A legal command
reports the first check that fails in the order of R226, with the causes of R221, and only that one; when none fails it
succeeds. -/
def Obligations.FirstFailingCheckIsReported : Prop :=
  (∀ (s : State) (e : DecodeError) (rest : List Byte), s.resetIn = false → decode s.input = .illegal e rest →
    step s = .next { s with input := rest, output := s.output ++ [.error .illegalCommand] }) ∧
  (∀ (i : Instr) (s : State),
    (∀ e, firstFailingCheck i s = some e → exec i s = .next { s with output := s.output ++ [.error e] }) ∧
    (firstFailingCheck i s = none →
      ∃ (t : State) (out : List Byte), exec i s = .next t ∧ t.output = s.output ++ [.ok out]))

/-- Every step answers a next state, a step answers at most one response, and never `IOFailure` (R220, R225). -/
def Obligations.EveryStepGoesOn : Prop :=
  ∀ s : State, ∃ t : State, step s = .next t ∧
    (t.output = s.output ∨ ∃ a, t.output = s.output ++ [a] ∧ a ≠ .error .ioFailure)

/-- The response header: `STATUS`, a zero byte, `OUTLEN`; and on success `OUTLEN` is the value in the opcode map, which
fits its 16 bits (R72, R75). -/
def Obligations.ResponseHeaderCarriesTheOutputLength : Prop :=
  ∀ (i : Instr) (s t : State) (out : List Byte), i.wellFormed = true → s.keys.Inv →
    exec i s = .next t → t.output = s.output ++ [.ok out] →
    out.length = outLen i s ∧
    (Response.ok out).bytes.take 4 =
      [0x00, 0x00, BitVec.ofNat 8 (outLen i s / 256), BitVec.ofNat 8 (outLen i s % 256)] ∧
    outLen i s < 2 ^ 16
end

