-- ==== Sys2Proof/Laws/State.lean ====
section
/-!
SUPPORT. One lemma per field per update of the state, each true by rfl, so that no later proof unfolds a record update.
-/

namespace Sys2Proof.Machine

/-! ### `respond` -/

@[simp] theorem respond_hash (r : Response) (s : State) : (respond r s).hash = s.hash := rfl
@[simp] theorem respond_keys (r : Response) (s : State) : (respond r s).keys = s.keys := rfl
@[simp] theorem respond_input (r : Response) (s : State) : (respond r s).input = s.input := rfl
@[simp] theorem respond_output (r : Response) (s : State) : (respond r s).output = s.output ++ [r] := rfl
@[simp] theorem respond_resetIn (r : Response) (s : State) : (respond r s).resetIn = s.resetIn := rfl
@[simp] theorem respond_freeIdx (r : Response) (s : State) : (respond r s).freeIdx = s.freeIdx := rfl

/-! ### `withInput` -/

@[simp] theorem withInput_hash (s : State) (bytes : List Byte) : (s.withInput bytes).hash = s.hash := rfl
@[simp] theorem withInput_keys (s : State) (bytes : List Byte) : (s.withInput bytes).keys = s.keys := rfl
@[simp] theorem withInput_input (s : State) (bytes : List Byte) : (s.withInput bytes).input = bytes := rfl
@[simp] theorem withInput_output (s : State) (bytes : List Byte) : (s.withInput bytes).output = s.output := rfl
@[simp] theorem withInput_resetIn (s : State) (bytes : List Byte) : (s.withInput bytes).resetIn = s.resetIn := rfl
@[simp] theorem withInput_freeIdx (s : State) (bytes : List Byte) : (s.withInput bytes).freeIdx = s.freeIdx := rfl

/-! ### `takeReset` -/

@[simp] theorem takeReset_hash (s : State) : (takeReset s).hash = resetHash s.freeIdx := rfl
@[simp] theorem takeReset_keys (s : State) : (takeReset s).keys = resetKeys s.freeIdx := rfl
@[simp] theorem takeReset_input (s : State) : (takeReset s).input = [] := rfl
@[simp] theorem takeReset_output (s : State) : (takeReset s).output = s.output := rfl
@[simp] theorem takeReset_resetIn (s : State) : (takeReset s).resetIn = false := rfl
@[simp] theorem takeReset_freeIdx (s : State) : (takeReset s).freeIdx = s.freeIdx + 1 := rfl

/-! ### `withFetchWord` -/

@[simp] theorem withFetchWord_hash (s : State) (nbits w : Nat) : (s.withFetchWord nbits w).hash = s.hash := rfl
@[simp] theorem withFetchWord_keys (s : State) (nbits w : Nat) : (s.withFetchWord nbits w).keys = s.keys := rfl
@[simp] theorem withFetchWord_input (s : State) (nbits w : Nat) : (s.withFetchWord nbits w).input = tableWordBytes nbits w ++ s.input := rfl
@[simp] theorem withFetchWord_output (s : State) (nbits w : Nat) : (s.withFetchWord nbits w).output = s.output := rfl
@[simp] theorem withFetchWord_resetIn (s : State) (nbits w : Nat) : (s.withFetchWord nbits w).resetIn = false := rfl
@[simp] theorem withFetchWord_freeIdx (s : State) (nbits w : Nat) : (s.withFetchWord nbits w).freeIdx = s.freeIdx := rfl

/-! ### `transform` -/

@[simp] theorem transform_h (hs : HashState) : (transform hs).h = compress hs.h hs.buf.toList := rfl
@[simp] theorem transform_buf (hs : HashState) : (transform hs).buf = hs.buf := rfl
@[simp] theorem transform_bufLen (hs : HashState) : (transform hs).bufLen = hs.bufLen := rfl
@[simp] theorem transform_nBlocks (hs : HashState) : (transform hs).nBlocks = hs.nBlocks := rfl
@[simp] theorem transform_phase (hs : HashState) : (transform hs).phase = hs.phase := rfl

/-! ### `hashInit` -/

@[simp] theorem hashInit_h (hs : HashState) : (hashInit hs).h = iv256 := rfl
@[simp] theorem hashInit_buf (hs : HashState) : (hashInit hs).buf = hs.buf := rfl
@[simp] theorem hashInit_bufLen (hs : HashState) : (hashInit hs).bufLen = 0 := rfl
@[simp] theorem hashInit_nBlocks (hs : HashState) : (hashInit hs).nBlocks = 0 := rfl
@[simp] theorem hashInit_phase (hs : HashState) : (hashInit hs).phase = .absorbing := rfl

/-! ### `putByte` -/

@[simp] theorem putByte_h (hs : HashState) (b : Byte) : (putByte hs b).h = hs.h := rfl
@[simp] theorem putByte_buf (hs : HashState) (b : Byte) : (putByte hs b).buf = hs.buf.set hs.bufLen.toNat b hs.bufLen.isLt := rfl
@[simp] theorem putByte_bufLen (hs : HashState) (b : Byte) : (putByte hs b).bufLen = hs.bufLen := rfl
@[simp] theorem putByte_nBlocks (hs : HashState) (b : Byte) : (putByte hs b).nBlocks = hs.nBlocks := rfl
@[simp] theorem putByte_phase (hs : HashState) (b : Byte) : (putByte hs b).phase = hs.phase := rfl

/-! ### The reset values -/

@[simp] theorem resetHash_phase (n : Nat) : (resetHash n).phase = .idle := rfl
@[simp] theorem resetKeys_valid (n : Nat) : (resetKeys n).valid = false := rfl

/-! ### Two responses in a row, and the response as the update the statements write -/

theorem respond_eq (r : Response) (s : State) : respond r s = { s with output := s.output ++ [r] } := rfl

theorem withInput_eq (s : State) (bytes : List Byte) : s.withInput bytes = { s with input := bytes } := rfl

end Sys2Proof.Machine
end

