-- ==== Sys2Proof/Laws/Ops.lean ====
section
/-!
SUPPORT. What the shared operations of Machine/Ops.lean can do, said once each: the two ways a command ends, the byte
order, the reset event, and the step.
-/

namespace Sys2Proof.Machine

/-! ## How a command ends -/

/-- A command that succeeds: the response is the only change. -/
theorem emit_eq_next {out : List Byte} {s t : State} : emit out s = .next t ↔ t = respond (.ok out) s := by
  simp [emit, eq_comm]

/-- A command that fails: the error response is the only change (R224). -/
theorem raise_eq_next {e : ErrorKind} {s t : State} : raise e s = .next t ↔ t = respond (.error e) s := by
  simp [raise, eq_comm]

theorem emit_def (out : List Byte) (s : State) : emit out s = .next (respond (.ok out) s) := rfl

theorem raise_def (e : ErrorKind) (s : State) : raise e s = .next (respond (.error e) s) := rfl

/-- A response is told by the last entry of the output stream. -/
theorem respond_output_inj {a b : Response} {s : State} {l : List Response} (h : l = s.output)
    (e : (respond a s).output = l ++ [b]) : a = b := by
  subst h; simpa using e

/-! ## Byte order -/

@[simp] theorem be32_length (w : BitVec 32) : (be32 w).length = 4 := rfl

@[simp] theorem be64_length (v : BitVec 64) : (be64 v).length = 8 := rfl

/-- The bytes of a word made of four bytes are those bytes (R14). -/
theorem be32_append (a b c d : Byte) : be32 (a ++ b ++ c ++ d) = [a, b, c, d] := by
  simp only [be32, List.cons.injEq, and_true]
  refine ⟨?_, ?_, ?_, ?_⟩ <;> refine BitVec.eq_of_getLsbD_eq fun i hi => ?_ <;>
    simp only [BitVec.getLsbD_extractLsb', BitVec.getLsbD_append]
  · simp [hi, show ¬ (24 + i < 8) by omega, show ¬ (24 + i - 8 < 8) by omega, show ¬ (24 + i - 8 - 8 < 8) by omega,
      show 24 + i - 8 - 8 - 8 = i by omega]
  · simp [hi, show ¬ (16 + i < 8) by omega, show ¬ (16 + i - 8 < 8) by omega, show 16 + i - 8 - 8 = i by omega]
  · simp [hi]
  · simp [hi]

/-! ## The step -/

/-- A step takes the reset event, runs the command at the front of the stream, discards an illegal one, or waits. -/
theorem step_cases (s : State) :
    (s.resetIn = true ∧ step s = .next (takeReset s)) ∨
    (s.resetIn = false ∧ ∃ i rest, decode s.input = .command i rest ∧ step s = exec i (s.withInput rest)) ∨
    (s.resetIn = false ∧ ∃ e rest, decode s.input = .illegal e rest ∧
      step s = .next (respond (.error .illegalCommand) (s.withInput rest))) ∨
    (s.resetIn = false ∧ decode s.input = .incomplete ∧ step s = .next s) := by
  cases hr : s.resetIn
  · cases hd : decode s.input <;> simp [step, hr, hd, raise_def]
  · simp [step, hr]

end Sys2Proof.Machine
end

