-- ==== Sys2Proof/Laws/Decode.lean ====
section
/-!
SUPPORT. What the pieces of the decoder and the encoder do, said once each.
-/

namespace Sys2Proof

/-- Every opcode of the map is found (R75). -/
@[simp] theorem ofCode_code (op : Op) : Op.ofCode op.code = some op := by cases op <;> rfl

/-- An opcode that is found is that mnemonic's code. -/
theorem code_of_ofCode {c : BitVec 8} {op : Op} (h : Op.ofCode c = some op) : c = op.code := by
  exact (beq_iff_eq.mp (List.find?_some (p := fun op : Op => op.code == c) h)).symm

/-- The two length bytes of a header carry any length below 2^16 (R71). -/
theorem lenBytes_toNat {n : Nat} (h : n < 2 ^ 16) :
    ((BitVec.ofNat 16 n).extractLsb' 8 8 ++ (BitVec.ofNat 16 n).extractLsb' 0 8 : BitVec 16).toNat = n := by
  have e : ((BitVec.ofNat 16 n).extractLsb' 8 8 ++ (BitVec.ofNat 16 n).extractLsb' 0 8 : BitVec 16) = BitVec.ofNat 16 n := by
    refine BitVec.eq_of_getLsbD_eq fun i hi => ?_
    simp only [BitVec.getLsbD_extractLsb', BitVec.getLsbD_append]
    by_cases h8 : i < 8
    · simp [h8]
    · simp [h8, show i - 8 < 8 by omega, show 8 + (i - 8) = i by omega]
  rw [e, BitVec.toNat_ofNat, Nat.mod_eq_of_lt h]

/-- The header bytes: `OPC`, `ARG`, `LEN[15:8]`, `LEN[7:0]` (R71). -/
theorem be32_header (opc arg : BitVec 8) (len : BitVec 16) :
    be32 (opc ++ arg ++ len) = [opc, arg, len.extractLsb' 8 8, len.extractLsb' 0 8] := by
  have e : len = len.extractLsb' 8 8 ++ len.extractLsb' 0 8 := by
    refine BitVec.eq_of_getLsbD_eq fun i hi => ?_
    simp only [BitVec.getLsbD_extractLsb', BitVec.getLsbD_append]
    by_cases h8 : i < 8
    · simp [h8]
    · simp [h8, show i - 8 < 8 by omega, show 8 + (i - 8) = i by omega]
  have e2 : opc ++ arg ++ len = opc ++ arg ++ len.extractLsb' 8 8 ++ len.extractLsb' 0 8 := by
    refine BitVec.eq_of_getLsbD_eq fun i hi => ?_
    simp only [BitVec.getLsbD_extractLsb', BitVec.getLsbD_append]
    by_cases h8 : i < 8
    · simp [h8, show i < 16 by omega]
    · by_cases h16 : i < 16
      · simp [h8, h16, show i - 8 < 8 by omega, show 8 + (i - 8) = i by omega]
      · simp [h8, h16, show ¬ (i - 8 < 8) by omega, show i - 8 - 8 = i - 16 by omega]
  rw [e2, Machine.be32_append]

/-- A whole command at the front of a stream is decoded by its header and payload (R70). -/
theorem decode_header (opc arg : BitVec 8) (payload rest : List Byte) (h : payload.length < 2 ^ 16) :
    decode (be32 (opc ++ arg ++ BitVec.ofNat 16 payload.length) ++ payload ++ rest) =
      decodeCommand opc arg payload rest := by
  simp only [be32_header, List.cons_append, List.nil_append, decode, lenBytes_toNat h]
  simp

/-- Fewer bytes than a whole command are no command yet. -/
theorem decode_short (opc arg : BitVec 8) (len : BitVec 16) (tail : List Byte) (h : tail.length < len.toNat) :
    decode (be32 (opc ++ arg ++ len) ++ tail) = .incomplete := by
  have e : (len.extractLsb' 8 8 ++ len.extractLsb' 0 8 : BitVec 16) = len := by
    have := lenBytes_toNat len.isLt
    apply BitVec.eq_of_toNat_eq
    simpa using this
  simp only [be32_header, List.cons_append, List.nil_append, decode, e]
  simp [h]

/-- A block read from its own bytes (R74). -/
@[simp] theorem blockOfBytes_toList (b : Block) : blockOfBytes b.toList = b := by
  ext k hk
  simp [blockOfBytes]

/-- Sixteen bytes read as a block and written out again (R74). -/
theorem toList_blockOfBytes {bytes : List Byte} (h : bytes.length = 16) : (blockOfBytes bytes).toList = bytes := by
  apply List.ext_getElem
  · simp [h]
  · intro k hk hk'
    simp [blockOfBytes, hk']

/-- A command put together again from its mnemonic, argument and payload (R74). -/
@[simp] theorem assemble_op (i : Instr) : i.op.assemble i.argField i.payload = i := by
  cases i <;> simp [Instr.op, Op.assemble, Instr.argField, Instr.payload]

/-- The fields of a command satisfy its format (R73). -/
@[simp] theorem format_allows (i : Instr) : i.op.format.violation i.argField i.payload.length = none := by
  cases i <;> simp [Instr.op, Op.format, Format.violation, Instr.argField, Instr.payload]

/-- A well-formed command's payload fits the field `LEN` (R71). -/
theorem payload_length_lt {i : Instr} (h : i.wellFormed = true) : i.payload.length < 2 ^ 16 := by
  cases i <;> simp_all [Instr.wellFormed, Instr.payload, Config.lenW]

end Sys2Proof
end

