-- ==== Sys2Proof/Laws/Round.lean ====
section
/-!
SUPPORT. What the round engine's operations do, said once each: field arithmetic is linear over XOR (R160 to R162), and
the columns of a block put together and taken apart (R32).
-/

namespace Sys2Proof.Machine

/-! ## Field arithmetic -/

/-- `xtime` is linear over XOR (R161). -/
theorem xtime_xor (x y : Byte) : xtime (x ^^^ y) = xtime x ^^^ xtime y := by
  have hs : (x ^^^ y) <<< 1 = x <<< 1 ^^^ y <<< 1 := BitVec.shiftLeft_xor_distrib x y 1
  simp only [xtime, hs, BitVec.getLsbD_xor]
  cases x.getLsbD 7 <;> cases y.getLsbD 7 <;> refine BitVec.eq_of_getLsbD_eq fun i hi => ?_ <;>
    simp [Bool.xor_comm, Bool.xor_left_comm]

@[simp] theorem xtime_zero : xtime 0 = 0 := by decide

/-- The loop of `multiply` is linear in its first operand (R162). -/
theorem multiplyFrom_xor (y : Byte) (fuel i : Nat) (p q r t : Byte) :
    multiplyFrom y fuel i (p ^^^ q) (r ^^^ t) = multiplyFrom y fuel i p r ^^^ multiplyFrom y fuel i q t := by
  induction fuel generalizing i p q r t with
  | zero => rfl
  | succ n ih =>
    simp only [multiplyFrom, xtime_xor]
    have e : (if y.getLsbD i then r ^^^ t ^^^ (p ^^^ q) else r ^^^ t) =
        (if y.getLsbD i then r ^^^ p else r) ^^^ (if y.getLsbD i then t ^^^ q else t) := by
      cases y.getLsbD i <;> refine BitVec.eq_of_getLsbD_eq fun i hi => ?_ <;>
        simp [Bool.xor_left_comm]
    rw [e, ih]

/-- `multiply` is linear in its first operand (R162). -/
theorem multiply_xor_left (x y c : Byte) : multiply (x ^^^ y) c = multiply x c ^^^ multiply y c := by
  have := multiplyFrom_xor c 8 0 x y 0 0
  simpa [multiply] using this

/-! ## Columns (R32) -/

/-- The columns of a block put together from columns. -/
@[simp] theorem stateColumn_ofColumns (col : Fin 4 → Column) (c : Fin 4) : stateColumn (ofColumns col) c = col c := by
  ext j hj
  simp [stateColumn, ofColumns, show (4 * c.val + j) / 4 = c.val by omega, Nat.mod_eq_of_lt hj]

/-- A block is put together from its columns. -/
@[simp] theorem ofColumns_stateColumn (b : Block) : ofColumns (stateColumn b) = b := by
  ext k hk
  simp [stateColumn, ofColumns, show 4 * (k / 4) + k % 4 = k by omega]

/-- Two blocks with the same columns are the same. -/
theorem block_ext_columns {a b : Block} (h : ∀ c, stateColumn a c = stateColumn b c) : a = b := by
  rw [← ofColumns_stateColumn a, ← ofColumns_stateColumn b]
  congr 1
  funext c
  exact h c

/-- MixColumns acts on each column by itself (R171, R173). -/
@[simp] theorem stateColumn_mixColumns (b : Block) (c : Fin 4) :
    stateColumn (mixColumns b) c = mixColumn (stateColumn b c) := by simp [mixColumns]

/-- InvMixColumns acts on each column by itself (R172, R173). -/
@[simp] theorem stateColumn_invMixColumns (b : Block) (c : Fin 4) :
    stateColumn (invMixColumns b) c = invMixColumn (stateColumn b c) := by simp [invMixColumns]

/-! ## Bytes of the transforms -/

@[simp] theorem subBytes_getElem (b : Block) (k : Nat) (hk : k < 16) : (subBytes b)[k] = sbox b[k] := by
  simp [subBytes]

@[simp] theorem invSubBytes_getElem (b : Block) (k : Nat) (hk : k < 16) : (invSubBytes b)[k] = invSbox b[k] := by
  simp [invSubBytes]

theorem shiftRows_getElem (b : Block) (k : Nat) (hk : k < 16) :
    (shiftRows b)[k] = b[k % 4 + 4 * ((k / 4 + k % 4) % 4)]'(by omega) := by simp [shiftRows]

theorem invShiftRows_getElem (b : Block) (k : Nat) (hk : k < 16) :
    (invShiftRows b)[k] = b[k % 4 + 4 * ((k / 4 + 4 - k % 4) % 4)]'(by omega) := by simp [invShiftRows]

@[simp] theorem addRoundKey_getElem (rks : Vector Column Config.rksWords) (b : Block) (r k : Nat) (hk : k < 16) :
    (addRoundKey rks b r)[k] = b[k] ^^^ scheduleByte rks (16 * r + k) := by simp [addRoundKey, roundKey]

/-- AddRoundKey is its own inverse (R174). -/
@[simp] theorem addRoundKey_addRoundKey (rks : Vector Column Config.rksWords) (b : Block) (r : Nat) :
    addRoundKey rks (addRoundKey rks b r) r = b := by
  ext k hk
  simp

/-- The bytes of round key `r`: word `c` meets column `c`, byte `j` of the word meets row `j` (R43 (c)). -/
theorem scheduleByte_round (rks : Vector Column Config.rksWords) (r c j : Nat) (hj : j < 4) :
    scheduleByte rks (16 * r + (4 * c + j)) = (scheduleWord rks (4 * r + c))[j] := by
  have h1 : (16 * r + (4 * c + j)) / 4 = 4 * r + c := by omega
  have h2 : (16 * r + (4 * c + j)) % 4 = j := by omega
  simp [scheduleByte, h1, h2]

end Sys2Proof.Machine
end

