-- ==== Sys2Proof/Laws/Cipher.lean ====
section
/-!
SUPPORT. What the cipher driver's buffer operations do, said once each (R74, R195 to R197).
-/

namespace Sys2Proof.Machine

theorem bufferBlocks_short {buffer : List Byte} (h : buffer.length < 16) : bufferBlocks buffer = [] := by
  simp [bufferBlocks, Nat.div_eq_of_lt h]

/-- A first block, then the blocks of the rest (R74). -/
theorem bufferBlocks_block_append (b : Block) (rest : List Byte) :
    bufferBlocks (b.toList ++ rest) = b :: bufferBlocks rest := by
  have hb : b.toList.length = 16 := by simp
  have hd : (b.toList ++ rest).length / 16 = rest.length / 16 + 1 := by rw [List.length_append, hb]; omega
  rw [bufferBlocks, hd, List.range_succ_eq_map, List.map_cons, List.map_map, bufferBlocks]
  congr 1
  · rw [bufferBlock, Nat.mul_zero, List.drop_zero, List.take_left' hb, blockOfBytes_toList]
  · apply List.map_congr_left
    intro i _
    have : 16 * (i + 1) = 16 + 16 * i := by omega
    simp only [Function.comp, bufferBlock, this]
    rw [← List.drop_drop, List.drop_left' hb]

/-- The blocks written out one after the other are the buffer, for a buffer of whole blocks (R46 (b)). -/
theorem exists_blocks {buffer : List Byte} (h : buffer.length % 16 = 0) :
    ∃ blocks : List Block, buffer = blocks.flatMap Vector.toList := by
  obtain ⟨n, hn⟩ : ∃ n, buffer.length = 16 * n := ⟨buffer.length / 16, by omega⟩
  induction n generalizing buffer with
  | zero => exact ⟨[], List.eq_nil_of_length_eq_zero (by omega)⟩
  | succ n ih =>
    obtain ⟨bs, hbs⟩ := ih (buffer := buffer.drop 16) (by simp; omega) (by simp; omega)
    refine ⟨blockOfBytes (buffer.take 16) :: bs, ?_⟩
    rw [List.flatMap_cons, toList_blockOfBytes (by simp; omega), ← hbs, List.take_append_drop]

/-- The blocks of a buffer that is written out from blocks (R74). -/
@[simp] theorem bufferBlocks_flatMap (blocks : List Block) : bufferBlocks (blocks.flatMap Vector.toList) = blocks := by
  induction blocks with
  | nil => rfl
  | cons b bs ih => rw [List.flatMap_cons, bufferBlocks_block_append, ih]

/-- A buffer written out from blocks, every block transformed (R195, R196). -/
theorem mapBlocks_flatMap (f : Block → Block) (blocks : List Block) :
    mapBlocks f (blocks.flatMap Vector.toList) = (blocks.map f).flatMap Vector.toList := by
  simp [mapBlocks, List.flatMap_map]

/-- The output is as long as the input, for a buffer of whole blocks (R195, R196). -/
theorem mapBlocks_length (f : Block → Block) {buffer : List Byte} (h : buffer.length % 16 = 0) :
    (mapBlocks f buffer).length = buffer.length := by
  obtain ⟨bs, rfl⟩ := exists_blocks h
  simp [mapBlocks_flatMap, List.length_flatMap, Function.comp_def]

/-- Blocks are independent (R197): the first buffer's output, then the second's. -/
theorem mapBlocks_append (f : Block → Block) {x y : List Byte} (hx : x.length % 16 = 0) (hy : y.length % 16 = 0) :
    mapBlocks f (x ++ y) = mapBlocks f x ++ mapBlocks f y := by
  obtain ⟨bs, rfl⟩ := exists_blocks hx
  obtain ⟨cs, rfl⟩ := exists_blocks hy
  rw [← List.flatMap_append, mapBlocks_flatMap, mapBlocks_flatMap, mapBlocks_flatMap, List.map_append,
    List.flatMap_append]

/-- Two transforms one after the other, over a buffer of whole blocks. -/
theorem mapBlocks_mapBlocks (f g : Block → Block) {buffer : List Byte} (h : buffer.length % 16 = 0) :
    mapBlocks f (mapBlocks g buffer) = mapBlocks (f ∘ g) buffer := by
  obtain ⟨bs, rfl⟩ := exists_blocks h
  simp [mapBlocks_flatMap]

end Sys2Proof.Machine
end

