-- ==== Sys2Proof/Laws/Hash.lean ====
section
/-!
SUPPORT. What the hash engine's operations do, said once each: whole blocks of a byte sequence, one turn of the HWRITE
loop, the loop over a chunk (R107), the padding (R109), HFINAL, and the rounds of TRANSFORM (R112).
-/

namespace Sys2Proof.Machine

/-! ## Whole blocks -/

/-- A sequence shorter than a block has no whole block. -/
theorem wholeBlocks_short {bytes : List Byte} (h : bytes.length < 64) : wholeBlocks bytes = [] := by
  simp [wholeBlocks, Nat.div_eq_of_lt h]

/-- A first whole block, then the blocks of the rest. -/
theorem wholeBlocks_block_append {block rest : List Byte} (h : block.length = 64) :
    wholeBlocks (block ++ rest) = block :: wholeBlocks rest := by
  have hd : (block ++ rest).length / 64 = rest.length / 64 + 1 := by rw [List.length_append, h]; omega
  rw [wholeBlocks, hd, List.range_succ_eq_map, List.map_cons, List.map_map, wholeBlocks]
  congr 1
  · simp [← h]
  · apply List.map_congr_left
    intro i _
    have : 64 * (i + 1) = block.length + 64 * i := by omega
    simp [Function.comp, this, ← List.drop_drop]

/-- The chaining value over a sequence shorter than a block is unchanged. -/
theorem compressAll_short {h : Vector Word 8} {bytes : List Byte} (hb : bytes.length < 64) :
    compressAll h bytes = h := by
  simp [compressAll, wholeBlocks_short hb]

/-- The chaining value over a first whole block and the rest. -/
theorem compressAll_block_append {h : Vector Word 8} {block rest : List Byte} (hb : block.length = 64) :
    compressAll h (block ++ rest) = compressAll (compress h block) rest := by
  simp [compressAll, wholeBlocks_block_append hb]

/-- One whole block. -/
theorem compressAll_block {h : Vector Word 8} {block : List Byte} (hb : block.length = 64) :
    compressAll h block = compress h block := by
  have := compressAll_block_append (h := h) (rest := []) hb
  simpa [compressAll_short] using this

/-- Compression over a joined sequence whose first part is whole blocks (R114). -/
theorem compressAll_append {h : Vector Word 8} {x y : List Byte} (hx : x.length % 64 = 0) :
    compressAll h (x ++ y) = compressAll (compressAll h x) y := by
  obtain ⟨n, hn⟩ : ∃ n, x.length = 64 * n := ⟨x.length / 64, by omega⟩
  induction n generalizing h x with
  | zero =>
    have : x = [] := List.eq_nil_of_length_eq_zero (by omega)
    subst this; simp [compressAll_short]
  | succ n ih =>
    have hs : x = x.take 64 ++ x.drop 64 := (List.take_append_drop 64 x).symm
    have ht : (x.take 64).length = 64 := by simp; omega
    have hdl : (x.drop 64).length = 64 * n := by simp; omega
    rw [hs, List.append_assoc, compressAll_block_append ht, compressAll_block_append ht]
    exact ih (by omega) hdl

/-- Bytes after the last whole block do not enter the chaining value. -/
theorem compressAll_append_short {h : Vector Word 8} {x y : List Byte} (hx : x.length % 64 = 0) (hy : y.length < 64) :
    compressAll h (x ++ y) = compressAll h x := by
  rw [compressAll_append hx, compressAll_short hy]

/-! ## The buffer -/

/-- The bytes of `BUF[0..BUFLEN]` (R21). -/
def HashState.pending (hs : HashState) : List Byte := hs.buf.toList.take hs.bufLen.toNat

/-- R33 (a): `BUFLEN < 64`. -/
theorem bufLen_lt (hs : HashState) : hs.bufLen.toNat < 64 := hs.bufLen.isLt

/-- R33 (b): `NBLOCKS ≤ 2^55 − 1`. -/
theorem nBlocks_lt (hs : HashState) : hs.nBlocks.toNat < 2 ^ 55 := hs.nBlocks.isLt

/-- The digest has 32 bytes (R111). -/
@[simp] theorem digestBytes_length (h : Vector Word 8) : (digestBytes h).length = 32 := by
  simp [digestBytes, List.length_flatMap]

@[simp] theorem pending_length (hs : HashState) : hs.pending.length = hs.bufLen.toNat := by
  have := bufLen_lt hs
  simp [HashState.pending]; omega

/-- Writing a byte behind the pending ones: the bytes up to and with it. -/
theorem putByte_take (hs : HashState) (b : Byte) :
    (putByte hs b).buf.toList.take (hs.bufLen.toNat + 1) = hs.pending ++ [b] := by
  have hl := bufLen_lt hs
  simp only [putByte, HashState.pending, Vector.toList_set]
  rw [List.take_add_one, List.take_set_of_le (Nat.le_refl _)]
  simp [hl]

/-- One turn of the HWRITE loop (R107): either the byte fills the buffer, the block is compressed, `NBLOCKS` advances and
the buffer is empty, or the byte is buffered. `PHASE` stays. -/
theorem absorbByte_cases (hs : HashState) (b : Byte) :
    (absorbByte hs b).phase = hs.phase ∧
    ((hs.bufLen.toNat + 1 = 64 ∧ (absorbByte hs b).bufLen = 0 ∧ (absorbByte hs b).nBlocks = hs.nBlocks + 1 ∧
        (absorbByte hs b).h = compress hs.h (hs.pending ++ [b])) ∨
     (hs.bufLen.toNat + 1 < 64 ∧ (absorbByte hs b).bufLen.toNat = hs.bufLen.toNat + 1 ∧
        (absorbByte hs b).nBlocks = hs.nBlocks ∧ (absorbByte hs b).h = hs.h ∧
        (absorbByte hs b).pending = hs.pending ++ [b])) := by
  have hl := bufLen_lt hs
  by_cases hc : hs.bufLen.toNat + 1 = 64
  · have e : (absorbByte hs b) = { transform (putByte hs b) with nBlocks := hs.nBlocks + 1, bufLen := 0 } := by
      simp [absorbByte, hc]
    refine ⟨by simp [e], Or.inl ⟨hc, by simp [e], by simp [e], ?_⟩⟩
    have : (putByte hs b).buf.toList = hs.pending ++ [b] := by
      rw [← putByte_take, hc]; simp
    simp only [e, transform_h, putByte_h, this]
  · have e : (absorbByte hs b) = { putByte hs b with bufLen := hs.bufLen + 1 } := by
      simp [absorbByte, hc]
    have hb : (hs.bufLen + 1).toNat = hs.bufLen.toNat + 1 := by
      rw [BitVec.toNat_add]; simp; omega
    refine ⟨by simp [e], Or.inr ⟨by omega, by rw [e]; exact hb, by simp [e], by simp [e], ?_⟩⟩
    rw [← putByte_take]
    simp only [HashState.pending, e, hb]

/-- The HWRITE loop over a chunk (R107), while the count stays in its 55 bits: the pending bytes joined to the chunk are
compressed 64 at a time, the rest is pending, the counts follow, and `PHASE` stays. -/
theorem absorb_spec (data : List Byte) (hs : HashState)
    (hn : hs.nBlocks.toNat + (hs.bufLen.toNat + data.length) / 64 < 2 ^ 55) :
    (absorb hs data).phase = hs.phase ∧
    (absorb hs data).bufLen.toNat = (hs.bufLen.toNat + data.length) % 64 ∧
    (absorb hs data).nBlocks.toNat = hs.nBlocks.toNat + (hs.bufLen.toNat + data.length) / 64 ∧
    (absorb hs data).h = compressAll hs.h (hs.pending ++ data) ∧
    (absorb hs data).pending =
      (hs.pending ++ data).drop (64 * ((hs.bufLen.toNat + data.length) / 64)) := by
  induction data generalizing hs with
  | nil =>
    have hl := bufLen_lt hs
    have h0 : hs.bufLen.toNat / 64 = 0 := Nat.div_eq_of_lt hl
    refine ⟨rfl, ?_, ?_, ?_, ?_⟩
    · simp [absorb, Nat.mod_eq_of_lt hl]
    · simp [absorb, h0]
    · rw [List.append_nil, compressAll_short (by simpa using hl)]; rfl
    · simp [absorb, h0]
  | cons b data ih =>
    have hl := bufLen_lt hs
    have hstep : absorb hs (b :: data) = absorb (absorbByte hs b) data := rfl
    obtain ⟨hp, ⟨hfull, hbl, hnb, hh⟩ | ⟨hless, hbl, hnb, hh, hpend⟩⟩ := absorbByte_cases hs b
    · have hbl' : (absorbByte hs b).bufLen.toNat = 0 := by simp [hbl]
      have hnb' : (absorbByte hs b).nBlocks.toNat = hs.nBlocks.toNat + 1 := by
        simp only [List.length_cons] at hn
        rw [hnb, BitVec.toNat_add]
        rw [show (1 : BitVec Config.nblocksW).toNat = 1 from rfl]
        exact Nat.mod_eq_of_lt (show _ < 2 ^ 55 by omega)
      have hpe : (absorbByte hs b).pending = [] := by simp [HashState.pending, hbl']
      have hd : (hs.bufLen.toNat + (b :: data).length) / 64 = data.length / 64 + 1 := by
        simp only [List.length_cons]; omega
      have hm : (hs.bufLen.toNat + (b :: data).length) % 64 = data.length % 64 := by
        simp only [List.length_cons]; omega
      have hblk : (hs.pending ++ [b]).length = 64 := by simpa using hfull
      obtain ⟨i1, i2, i3, i4, i5⟩ := ih (absorbByte hs b) (by rw [hnb', hbl']; rw [hd] at hn; omega)
      rw [hstep]
      refine ⟨by rw [i1, hp], by rw [i2, hbl', hm, Nat.zero_add], by rw [i3, hbl', hnb', hd]; omega, ?_, ?_⟩
      · rw [i4, hh, hpe, List.nil_append, ← compressAll_block_append hblk]; simp
      · rw [i5, hbl', hpe, hd, List.nil_append, Nat.zero_add]
        rw [show hs.pending ++ b :: data = (hs.pending ++ [b]) ++ data by simp,
          show 64 * (data.length / 64 + 1) = (hs.pending ++ [b]).length + 64 * (data.length / 64) by omega,
          ← List.drop_drop, List.drop_left]
    · have hlen : (absorbByte hs b).bufLen.toNat + data.length = hs.bufLen.toNat + (b :: data).length := by
        rw [hbl]; simp; omega
      obtain ⟨i1, i2, i3, i4, i5⟩ := ih (absorbByte hs b) (by rw [hnb, hlen]; exact hn)
      rw [hstep]
      refine ⟨by rw [i1, hp], by rw [i2, hlen], by rw [i3, hlen, hnb], ?_, ?_⟩
      · rw [i4, hh, hpend]; simp
      · rw [i5, hlen, hpend]; simp

/-- The HWRITE loop keeps `PHASE` (R106). -/
@[simp] theorem absorb_phase (hs : HashState) (data : List Byte) : (absorb hs data).phase = hs.phase := by
  induction data generalizing hs with
  | nil => rfl
  | cons b data ih => exact (ih (absorbByte hs b)).trans (absorbByte_cases hs b).1

/-- Absorbing chunks one after the other is absorbing them joined (R113). -/
theorem absorb_append (hs : HashState) (x y : List Byte) : absorb hs (x ++ y) = absorb (absorb hs x) y := by
  simp [absorb]

/-! ## Padding and HFINAL -/

theorem zeroRange_toList (buf : Vector Byte 64) {lo hi : Nat} (h : lo ≤ hi) (hh : hi ≤ 64) :
    (zeroRange buf lo hi).toList = buf.toList.take lo ++ List.replicate (hi - lo) 0x00 ++ buf.toList.drop hi := by
  apply List.ext_getElem
  · simp; omega
  · intro i h1 h2
    have hi64 : i < 64 := by simpa using h1
    simp only [zeroRange, Vector.getElem_toList, Vector.getElem_ofFn]
    by_cases h3 : i < lo
    · rw [if_neg (by omega), List.getElem_append_left (by simp; omega), List.getElem_append_left (by simp; omega)]
      simp
    · by_cases h4 : i < hi
      · rw [if_pos (by omega), List.getElem_append_left (by simp; omega), List.getElem_append_right (by simp; omega)]
        simp
      · rw [if_neg (by omega), List.getElem_append_right (by simp; omega)]
        simp [show min lo 64 = lo by omega, show hi + (i - (lo + (hi - lo))) = i by omega]

theorem putLength_toList (buf : Vector Byte 64) (bits : BitVec 64) :
    (putLength buf bits).toList = buf.toList.take 56 ++ be64 bits := by
  apply List.ext_getElem
  · simp
  · intro i h1 h2
    have hi64 : i < 64 := by simpa using h1
    simp only [putLength, Vector.getElem_toList, Vector.getElem_ofFn]
    by_cases h3 : i < 56
    · rw [if_neg (by omega), List.getElem_append_left (by simp; omega)]; simp
    · rw [if_pos (by omega), List.getElem_append_right (by simp; omega)]
      have h56 : i - 56 < (be64 bits).length := by rw [be64_length]; omega
      simp [List.getElem?_eq_getElem h56]

/-- The padding of a message with `n` bytes pending has this length (R109, R115). -/
theorem padding_length (n bits : Nat) : (padding n bits).length = 9 + (119 - n % 64) % 64 := by
  simp [padding]; omega

/-- HFINAL (R109, R110): the pending bytes and the padding are compressed in one block or two, `BUF` keeps the last 64 of
these bytes, `NBLOCKS` stays, `BUFLEN` is 0 and `PHASE` is FINALIZED. -/
theorem hashFinal_spec (hs : HashState) :
    (hashFinal hs).h = compressAll hs.h
      (hs.pending ++ padding hs.bufLen.toNat (512 * hs.nBlocks.toNat + 8 * hs.bufLen.toNat)) ∧
    (hashFinal hs).buf.toList =
      (hs.pending ++ padding hs.bufLen.toNat (512 * hs.nBlocks.toNat + 8 * hs.bufLen.toNat)).drop
        (if hs.bufLen.toNat ≤ 55 then 0 else 64) ∧
    (hashFinal hs).nBlocks = hs.nBlocks ∧ (hashFinal hs).bufLen = 0 ∧ (hashFinal hs).phase = .finalized := by
  have hl := bufLen_lt hs
  have hpl := pending_length hs
  have hput := putByte_take hs 0x80
  by_cases hc : hs.bufLen.toNat ≤ 55
  · have hpb : padBuffer hs = { putByte hs 0x80 with buf := zeroRange (putByte hs 0x80).buf (hs.bufLen.toNat + 1) 56 } := by
      simp [padBuffer, show ¬ (hs.bufLen.toNat + 1 > 56) by omega]
    have hbuf : (putLength (padBuffer hs).buf (bitLength hs)).toList =
        hs.pending ++ padding hs.bufLen.toNat (512 * hs.nBlocks.toNat + 8 * hs.bufLen.toNat) := by
      rw [putLength_toList, hpb, zeroRange_toList _ (by omega) (by omega), hput]
      rw [List.take_append_of_le_length (by simp [hpl]; omega), List.take_of_length_le (by simp [hpl]; omega)]
      simp [padding, bitLength, show (119 - hs.bufLen.toNat % 64) % 64 = 56 - (hs.bufLen.toNat + 1) by omega]
    have hlen : (hs.pending ++ padding hs.bufLen.toNat (512 * hs.nBlocks.toNat + 8 * hs.bufLen.toNat)).length = 64 := by
      rw [← hbuf]; simp
    refine ⟨?_, ?_, ?_, rfl, rfl⟩
    · rw [compressAll_block hlen, ← hbuf]
      simp [hashFinal, hpb]
    · rw [if_pos hc, List.drop_zero, ← hbuf]; rfl
    · simp [hashFinal, hpb]
  · have hpb : padBuffer hs =
        { putByte hs 0x80 with
          h := compress hs.h (zeroRange (putByte hs 0x80).buf (hs.bufLen.toNat + 1) 64).toList
          buf := zeroRange (zeroRange (putByte hs 0x80).buf (hs.bufLen.toNat + 1) 64) 0 56 } := by
      simp [padBuffer, show (hs.bufLen.toNat + 1 > 56) by omega, transform]
    have h1 : (zeroRange (putByte hs 0x80).buf (hs.bufLen.toNat + 1) 64).toList =
        hs.pending ++ 0x80 :: List.replicate (63 - hs.bufLen.toNat) 0x00 := by
      rw [zeroRange_toList _ (by omega) (by omega), hput]
      simp
    have h2 : (putLength (padBuffer hs).buf (bitLength hs)).toList =
        List.replicate 56 0x00 ++ be64 (bitLength hs) := by
      rw [putLength_toList, hpb, zeroRange_toList _ (by omega) (by omega)]
      simp
    have hsplit : hs.pending ++ padding hs.bufLen.toNat (512 * hs.nBlocks.toNat + 8 * hs.bufLen.toNat) =
        (hs.pending ++ 0x80 :: List.replicate (63 - hs.bufLen.toNat) 0x00) ++
          (List.replicate 56 0x00 ++ be64 (bitLength hs)) := by
      have : (119 - hs.bufLen.toNat % 64) % 64 = (63 - hs.bufLen.toNat) + 56 := by omega
      simp [padding, bitLength, this, List.replicate_add]
    have hl1 : (hs.pending ++ 0x80 :: List.replicate (63 - hs.bufLen.toNat) (0x00 : Byte)).length = 64 := by
      simp [hpl]; omega
    have hl2 : (List.replicate 56 (0x00 : Byte) ++ be64 (bitLength hs)).length = 64 := by simp
    refine ⟨?_, ?_, ?_, rfl, rfl⟩
    · rw [hsplit, compressAll_block_append hl1, compressAll_block hl2, ← h2, ← h1]
      simp [hashFinal, hpb]
    · rw [if_neg hc, hsplit, List.drop_left' hl1, ← h2]; rfl
    · simp [hashFinal, hpb]

/-! ## SHA-256 of the registers' message (R114) -/

/-- HFINAL of registers that hold the message `msg` leaves SHA-256 of it in `H` (R33 (e), R114). -/
theorem hashFinal_of_holds {hs : HashState} {msg : List Byte} (h : hs.Holds msg) :
    (hashFinal hs).h = sha256Words msg := by
  obtain ⟨hlen, hh, hp⟩ := h
  have hl := bufLen_lt hs
  have hn := hs.nBlocks.isLt
  rw [(hashFinal_spec hs).1, hh]
  have hpend : hs.pending = msg.drop (64 * hs.nBlocks.toNat) := hp
  have htl : (msg.take (64 * hs.nBlocks.toNat)).length % 64 = 0 := by simp; omega
  rw [← compressAll_append htl, hpend, ← List.append_assoc, List.take_append_drop, sha256Words]
  have e : padding hs.bufLen.toNat (512 * hs.nBlocks.toNat + 8 * hs.bufLen.toNat) =
      padding msg.length (8 * msg.length) := by
    simp only [padding]
    rw [show (119 - msg.length % 64) % 64 = (119 - hs.bufLen.toNat % 64) % 64 by omega,
      show 8 * msg.length = 512 * hs.nBlocks.toNat + 8 * hs.bufLen.toNat by omega]
  rw [e]

/-! ## TRANSFORM, round by round (R100, R112) -/

/-- `rotr` is the library's rotation, for the amounts R100 allows. -/
theorem rotr_eq_rotateRight (x : Word) {n : Nat} (h : n < 32) : rotr x n = x.rotateRight n := by
  simp [rotr, BitVec.rotateRight, BitVec.rotateRightAux, Nat.mod_eq_of_lt h]

@[simp] theorem k256_length : k256.length = 64 := by decide

/-- The working words in the order `a` to `h`. -/
def Working.toVector (v : Working) : Vector Word 8 := #v[v.a, v.b, v.c, v.d, v.e, v.f, v.g, v.h]

@[simp] theorem load_toVector (h : Vector Word 8) : (Working.load h).toVector = h := by
  refine Vector.ext fun i hi => ?_
  have : i = 0 ∨ i = 1 ∨ i = 2 ∨ i = 3 ∨ i = 4 ∨ i = 5 ∨ i = 6 ∨ i = 7 := by omega
  rcases this with rfl | rfl | rfl | rfl | rfl | rfl | rfl | rfl <;> rfl

/-- One round on named working words: the eight assignments of R112. -/
theorem hashRound_toVector {v : Working} {a b c d e f g h t1 t2 k w : Word}
    (hv : v.toVector = #v[a, b, c, d, e, f, g, h]) (h1 : t1 = h + bigSigma1 e + ch e f g + k + w)
    (h2 : t2 = bigSigma0 a + maj a b c) : (hashRound v (k, w)).toVector = #v[t1 + t2, a, b, c, d + t1, e, f, g] := by
  obtain ⟨va, vb, vc, vd, ve, vf, vg, vh⟩ := v
  simp only [Working.toVector, Vector.mk.injEq, Array.mk.injEq, List.cons.injEq, and_true] at hv
  obtain ⟨rfl, rfl, rfl, rfl, rfl, rfl, rfl, rfl⟩ := hv
  rw [h1, h2]; rfl

/-- The final addition, word by word. -/
theorem addTo_getElem (v : Working) (h : Vector Word 8) (i : Fin 8) : (v.addTo h)[i] = h[i] + v.toVector[i] := by
  have : i = 0 ∨ i = 1 ∨ i = 2 ∨ i = 3 ∨ i = 4 ∨ i = 5 ∨ i = 6 ∨ i = 7 := by omega
  rcases this with rfl | rfl | rfl | rfl | rfl | rfl | rfl | rfl <;> rfl

end Sys2Proof.Machine
end

