-- ==== Sys2Proof/Laws/KeySchedule.lean ====
section
/-!
SUPPORT. What the key schedule's operations do, said once each: reading a word after one is written, loading the key and
the expansion (R142).
-/

namespace Sys2Proof.Machine

/-- A word of the store inside its bounds (R25). -/
theorem scheduleWord_lt (rks : Vector Column Config.rksWords) {i : Nat} (h : i < Config.rksWords) :
    scheduleWord rks i = rks[i] := by
  simp [scheduleWord, h]

/-- A word beyond the store reads as zero bytes (log 10). -/
theorem scheduleWord_ge (rks : Vector Column Config.rksWords) {i : Nat} (h : Config.rksWords ≤ i) :
    scheduleWord rks i = Vector.replicate 4 0 := by
  simp [scheduleWord, h]

/-- Read after write: the word written, and every other word as before. -/
theorem scheduleWord_set (rks : Vector Column Config.rksWords) (i j : Nat) (w : Column) :
    scheduleWord (rks.setIfInBounds i w) j = if i = j ∧ i < Config.rksWords then w else scheduleWord rks j := by
  by_cases hj : j < Config.rksWords
  · rw [scheduleWord_lt _ hj, Vector.getElem_setIfInBounds hj]
    by_cases hij : i = j
    · subst hij; simp [hj]
    · simp [hij, scheduleWord_lt _ hj]
  · rw [scheduleWord_ge _ (by omega), scheduleWord_ge _ (by omega)]
    rw [if_neg (by omega)]

/-- Loading the key (R142): words 0 to `NK−1` are the key's, the others stay. -/
theorem loadKey_spec (nk : Nat) (hn : nk ≤ Config.rksWords) (material : List Byte)
    (rks : Vector Column Config.rksWords) (j : Nat) :
    scheduleWord (loadKey nk material rks) j = if j < nk then keyWord material j else scheduleWord rks j := by
  induction nk with
  | zero => simp [loadKey]
  | succ n ih =>
    have e : loadKey (n + 1) material rks = (loadKey n material rks).setIfInBounds n (keyWord material n) := by
      simp [loadKey, List.range_succ]
    rw [e, scheduleWord_set, ih (by omega)]
    by_cases hj : n = j
    · subst hj; simp [show n < Config.rksWords by omega]
    · by_cases h1 : j < n
      · simp [hj, h1, show j < n + 1 by omega]
      · simp [hj, h1, show ¬ j < n + 1 by omega]

/-- The expansion loop over words `nk .. nk+n−1` (R142): words outside the range stay, words inside satisfy the
recurrence in the final store. -/
theorem expandLoop_spec (nk n : Nat) (h0 : 0 < nk) (hn : nk + n ≤ Config.rksWords) (rks : Vector Column Config.rksWords) :
    (∀ j, j < nk ∨ nk + n ≤ j →
      scheduleWord ((List.range' nk n).foldl (expandWord nk) rks) j = scheduleWord rks j) ∧
    (∀ j, nk ≤ j → j < nk + n → scheduleWord ((List.range' nk n).foldl (expandWord nk) rks) j =
      xorWord (scheduleWord ((List.range' nk n).foldl (expandWord nk) rks) (j - nk))
        (scheduleTemp nk j (scheduleWord ((List.range' nk n).foldl (expandWord nk) rks) (j - 1)))) := by
  induction n with
  | zero => simp; omega
  | succ n ih =>
    obtain ⟨ih1, ih2⟩ := ih (by omega)
    generalize hr : (List.range' nk n).foldl (expandWord nk) rks = r at ih1 ih2
    have e : (List.range' nk (n + 1)).foldl (expandWord nk) rks = expandWord nk r (nk + n) := by
      rw [List.range'_concat, List.foldl_append, hr]; simp
    have hw : ∀ j, scheduleWord (expandWord nk r (nk + n)) j =
        if nk + n = j then xorWord (scheduleWord r (nk + n - nk)) (scheduleTemp nk (nk + n) (scheduleWord r (nk + n - 1)))
        else scheduleWord r j := by
      intro j
      rw [expandWord, scheduleWord_set]
      simp [show nk + n < Config.rksWords by omega]
    rw [e]
    refine ⟨?_, ?_⟩
    · intro j hj
      rw [hw, if_neg (by omega), ih1 j (by omega)]
    · intro j h1 h2
      by_cases hj : nk + n = j
      · subst hj
        rw [hw, if_pos rfl, hw (nk + n - nk), if_neg (by omega), hw (nk + n - 1), if_neg (by omega)]
      · rw [hw, if_neg hj, hw (j - nk), if_neg (by omega), hw (j - 1), if_neg (by omega)]
        exact ih2 j h1 (by omega)

/-- The expansion of a key of 4, 6 or 8 words (R141, R142): the key verbatim, then the recurrence, and the words above
the schedule as they were. -/
theorem expandKey_spec {nk : Nat} (h : legalNk nk) (material : List Byte) (rks : Vector Column Config.rksWords) :
    (∀ i, i < nk → scheduleWord (expandKey nk material rks) i = keyWord material i) ∧
    Recurrence nk (expandKey nk material rks) ∧
    (∀ i, Config.scheduleWords nk ≤ i → scheduleWord (expandKey nk material rks) i = scheduleWord rks i) := by
  have hs : nk + (Config.scheduleWords nk - nk) = Config.scheduleWords nk := by
    simp only [Config.scheduleWords]; omega
  have hb : Config.scheduleWords nk ≤ Config.rksWords := by
    obtain rfl | rfl | rfl := h <;> decide
  have h0 : 0 < nk ∧ nk ≤ 8 := by obtain rfl | rfl | rfl := h <;> decide
  obtain ⟨l1, l2⟩ := expandLoop_spec nk (Config.scheduleWords nk - nk) h0.1 (by rw [hs]; exact hb)
    (loadKey nk material rks)
  rw [hs] at l1 l2
  have hk := loadKey_spec nk (by simp only [Config.rksWords]; omega) material rks
  refine ⟨?_, ?_, ?_⟩
  · intro i hi
    rw [expandKey, l1 i (Or.inl hi), hk, if_pos hi]
  · intro i h1 h2
    exact l2 i h1 h2
  · intro i hi
    have : nk ≤ i := by simp only [Config.scheduleWords] at hi; omega
    rw [expandKey, l1 i (Or.inr hi), hk, if_neg (by omega)]

/-- The recurrence and the first `NK` words fix every word of a schedule (R143). -/
theorem recurrence_unique {nk : Nat} (h0 : 0 < nk) {a b : Vector Column Config.rksWords} (ha : Recurrence nk a)
    (hb : Recurrence nk b) (hk : ∀ i, i < nk → scheduleWord a i = scheduleWord b i) :
    ∀ i, i < Config.scheduleWords nk → scheduleWord a i = scheduleWord b i := by
  intro i
  induction i using Nat.strong_induction_on with
  | _ i ih =>
    intro hi
    by_cases hlt : i < nk
    · exact hk i hlt
    · rw [ha i (by omega) hi, hb i (by omega) hi, ih (i - nk) (by omega) (by omega), ih (i - 1) (by omega) (by omega)]

/-- The lengths a key may have (R9, R141). -/
theorem validKeyBytes_iff (n : Nat) : validKeyBytes n = true ↔ n ∈ [16, 24, 32] := by
  simp [validKeyBytes, or_assoc]

/-- A legal key's length in words is a legal `NK` and fits the 4-bit field (R26). -/
theorem legalNk_of_validKeyBytes {n : Nat} (h : n ∈ [16, 24, 32]) :
    legalNk (n / 4) ∧ (BitVec.ofNat 4 (n / 4)).toNat = n / 4 := by
  simp only [List.mem_cons, List.not_mem_nil, or_false] at h
  obtain rfl | rfl | rfl := h <;> simp [legalNk]

/-- The schedule of a legal key fits the store (R10, R140). -/
theorem scheduleWords_le {nk : Nat} (h : legalNk nk) : Config.scheduleWords nk ≤ Config.rksWords := by
  obtain rfl | rfl | rfl := h <;> decide

/-- Written out word by word, a list of columns has four bytes for each. -/
theorem flatMap_column_length (l : List Column) : (l.flatMap Vector.toList).length = 4 * l.length := by
  induction l with
  | nil => rfl
  | cons w l ih => rw [List.flatMap_cons, List.length_append, ih, List.length_cons]; simp; omega

/-- KSREAD emits `16·(NK+7)` bytes (R146). -/
theorem scheduleBytes_length {k : KeyState} (h : legalNk k.nk.toNat) :
    (scheduleBytes k).length = 16 * (k.nk.toNat + 7) := by
  have hle := scheduleWords_le h
  rw [scheduleBytes, flatMap_column_length, List.length_take, Vector.length_toList]
  simp only [Config.scheduleWords, Config.rksWords] at *
  omega

end Sys2Proof.Machine
end

