-- ==== Sys2Proof/Laws/Exec.lean ====
section
/-!
SUPPORT. What `exec` can do, said once for all commands: it reports the first failing check (R226) and nothing else, or
it emits the command's output and makes the command's register writes. Every later proof about a command starts here.
-/

namespace Sys2Proof.Machine

/-- The output bytes of a command that succeeds. -/
def outputOf (i : Instr) (s : State) : List Byte :=
  match i with
  | .hinit => []
  | .hwrite _ => []
  | .hfinal => []
  | .hread => digestBytes s.hash.h
  | .kdf arg password => (digestBytes (hashPassword s.hash password).h).take arg.toNat
  | .kexp _ => []
  | .ksread => scheduleBytes s.keys
  | .subbytes block => (subBytes block).toList
  | .invsubbytes block => (invSubBytes block).toList
  | .shiftrows block => (shiftRows block).toList
  | .invshiftrows block => (invShiftRows block).toList
  | .mixcolumns block => (mixColumns block).toList
  | .invmixcolumns block => (invMixColumns block).toList
  | .addroundkey arg block => (addRoundKey s.keys.rks block arg.toNat).toList
  | .enc buffer => mapBlocks (encryptBlock s.keys) buffer
  | .dec buffer => mapBlocks (decryptBlock s.keys) buffer

/-- The hash registers after a command that succeeds. -/
def hashOf (i : Instr) (hs : HashState) : HashState :=
  match i with
  | .hinit => hashInit hs
  | .hwrite data => absorb hs data
  | .hfinal => hashFinal hs
  | .kdf _ password => hashPassword hs password
  | _ => hs

/-- The key-schedule registers after a command that succeeds. -/
def keysOf (i : Instr) (k : KeyState) : KeyState :=
  match i with
  | .kexp material =>
    { rks := expandKey (material.length / 4) material k.rks, nk := BitVec.ofNat 4 (material.length / 4), valid := true }
  | _ => k

/-- The state after a command that succeeds, before its response. -/
def effectOf (i : Instr) (s : State) : State := { s with hash := hashOf i s.hash, keys := keysOf i s.keys }

@[simp] theorem effectOf_hash (i : Instr) (s : State) : (effectOf i s).hash = hashOf i s.hash := rfl
@[simp] theorem effectOf_keys (i : Instr) (s : State) : (effectOf i s).keys = keysOf i s.keys := rfl
@[simp] theorem effectOf_input (i : Instr) (s : State) : (effectOf i s).input = s.input := rfl
@[simp] theorem effectOf_output (i : Instr) (s : State) : (effectOf i s).output = s.output := rfl
@[simp] theorem effectOf_resetIn (i : Instr) (s : State) : (effectOf i s).resetIn = s.resetIn := rfl
@[simp] theorem effectOf_freeIdx (i : Instr) (s : State) : (effectOf i s).freeIdx = s.freeIdx := rfl

/-- The answer of a command whose first failing check is `c`. -/
def answer (i : Instr) (s : State) (c : Option ErrorKind) : State :=
  match c with
  | some e => respond (.error e) s
  | none => respond (.ok (outputOf i s)) (effectOf i s)

/-- What `exec` can do. -/
theorem exec_eq (i : Instr) (s : State) : exec i s = .next (answer i s (firstFailingCheck i s)) := by
  have hv : ∀ n : Nat, (!validKeyBytes n) = true ↔ n ∉ [16, 24, 32] := by
    intro n; rw [← validKeyBytes_iff]; simp
  cases i with
  | hwrite data =>
    by_cases hp : s.hash.phase = .absorbing
    · by_cases ho : s.hash.nBlocks.toNat + (s.hash.bufLen.toNat + data.length) / 64 > 2 ^ 55 - 1
      · have hw : wouldOverflow s.hash data.length = true := decide_eq_true ho
        simp only [exec, execHwrite, firstFailingCheck, hw, hp, ne_eq, not_true_eq_false, if_false, ho, if_true]
        rfl
      · have hw : wouldOverflow s.hash data.length = false := decide_eq_false ho
        simp only [exec, execHwrite, firstFailingCheck, hw, hp, ne_eq, not_true_eq_false, if_false, ho,
          Bool.false_eq_true]
        rfl
    · simp [exec, execHwrite, firstFailingCheck, hp, raise_def, answer]
  | kdf arg password =>
    simp only [exec, execKdf, firstFailingCheck, hv]
    split
    · rfl
    · split <;> rfl
  | kexp material =>
    simp only [exec, execKexp, firstFailingCheck, hv]
    split <;> rfl
  | hinit => rfl
  | hfinal => simp only [exec, execHfinal, firstFailingCheck]; split <;> rfl
  | hread => simp only [exec, execHread, firstFailingCheck]; split <;> rfl
  | ksread =>
    cases hk : s.keys.valid <;> simp [exec, execKsread, firstFailingCheck, hk, raise_def, emit_def, answer]; rfl
  | subbytes block => rfl
  | invsubbytes block => rfl
  | shiftrows block => rfl
  | invshiftrows block => rfl
  | mixcolumns block => rfl
  | invmixcolumns block => rfl
  | addroundkey arg block =>
    cases hk : s.keys.valid
    · simp [exec, execAddroundkey, firstFailingCheck, hk, raise_def, answer]
    · simp only [exec, execAddroundkey, firstFailingCheck, hk, KeyState.rounds, Config.rounds, Bool.not_true,
        Bool.false_eq_true, if_false, Bool.true_eq_false]
      by_cases hr : arg.toNat > s.keys.nk.toNat + 6
      · simp only [hr, if_true]; rfl
      · simp only [hr, if_false]; rfl
  | enc buffer =>
    simp only [exec, execEnc, firstFailingCheck]
    cases hk : s.keys.valid <;> split <;> rfl
  | dec buffer =>
    simp only [exec, execDec, firstFailingCheck]
    cases hk : s.keys.valid <;> split <;> rfl

/-- The first failing check of a command decides its answer. -/
theorem exec_of_fails {i : Instr} {s : State} {e : ErrorKind} (h : firstFailingCheck i s = some e) :
    exec i s = .next (respond (.error e) s) := by rw [exec_eq, h]; rfl

/-- A command none of whose checks fails succeeds. -/
theorem exec_of_passes {i : Instr} {s : State} (h : firstFailingCheck i s = none) :
    exec i s = .next (respond (.ok (outputOf i s)) (effectOf i s)) := by rw [exec_eq, h]; rfl

/-- What a command that answered can have done (R224): it failed with one error and nothing else, or it succeeded. -/
theorem exec_cases {i : Instr} {s t : State} (h : exec i s = .next t) :
    (∃ e, firstFailingCheck i s = some e ∧ t = respond (.error e) s) ∨
    (firstFailingCheck i s = none ∧ t = respond (.ok (outputOf i s)) (effectOf i s)) := by
  cases hc : firstFailingCheck i s with
  | some e => rw [exec_of_fails hc] at h; cases h; exact Or.inl ⟨e, rfl, rfl⟩
  | none => rw [exec_of_passes hc] at h; cases h; exact Or.inr ⟨rfl, rfl⟩

/-- A sequence of commands always runs to its end. -/
theorem execAll_next (is : List Instr) (s : State) : ∃ t, execAll is s = .next t := by
  induction is generalizing s with
  | nil => exact ⟨s, rfl⟩
  | cons i is ih => simp only [execAll, exec_eq]; exact ih _

/-- A sequence in two parts (R51). -/
theorem execAll_append {a b : List Instr} {s t : State} (h : execAll a s = .next t) :
    execAll (a ++ b) s = execAll b t := by
  induction a generalizing s with
  | nil => cases h; rfl
  | cons i is ih =>
    simp only [execAll, List.cons_append, exec_eq] at h ⊢
    exact ih h

end Sys2Proof.Machine
end

