-- ==== Sys2Proof/Laws/PerInstr.lean ====
section
/-!
SUPPORT. Laws proved instruction by instruction. RowOfHeader: the header of a well-formed command matches its own row of
the opcode map (30_encoding.md R75), whatever its operands.
-/

namespace Sys2Proof.Laws.RowOfHeader

/-- The header that a well-formed command is encoded with is the command of its row: `h & mask == match` (R75). -/
def Statement (i : Instr) : Prop := i.wellFormed = true → i.op.matchesHeader i.header = true

/-- AND works part by part on appended words. -/
theorem append_and_append {m n : Nat} (a b : BitVec m) (c d : BitVec n) :
    ((a ++ c) &&& (b ++ d)) = (a &&& b) ++ (c &&& d) := by
  refine BitVec.eq_of_getLsbD_eq fun i _ => ?_
  simp only [BitVec.getLsbD_and, BitVec.getLsbD_append]
  split <;> rfl

/-- The row's mask keeps `OPC` and the fields its format fixes. -/
theorem mask_stream (c : BitVec 8) (n : BitVec 16) :
    ((c ++ (0 : BitVec 8) ++ n : BitVec 32) &&& 0xFFFF0000) = c ++ (0 : BitVec 8) ++ (0 : BitVec 16) := by
  rw [show (0xFFFF0000 : BitVec 32) = BitVec.allOnes 8 ++ BitVec.allOnes 8 ++ (0 : BitVec 16) by decide,
    append_and_append, append_and_append]
  simp only [BitVec.and_allOnes, BitVec.and_zero, BitVec.ofNat_eq_ofNat]

/-- The row of format A keeps `OPC` alone. -/
theorem mask_argument (c a : BitVec 8) (n : BitVec 16) :
    ((c ++ a ++ n : BitVec 32) &&& 0xFF000000) = c ++ (0 : BitVec 8) ++ (0 : BitVec 16) := by
  rw [show (0xFF000000 : BitVec 32) = BitVec.allOnes 8 ++ (0 : BitVec 8) ++ (0 : BitVec 16) by decide,
    append_and_append, append_and_append]
  simp only [BitVec.and_allOnes, BitVec.and_zero, BitVec.ofNat_eq_ofNat]

/-- The row of format R keeps `OPC` and `LEN`. -/
theorem mask_round (c a : BitVec 8) (n : BitVec 16) :
    ((c ++ a ++ n : BitVec 32) &&& 0xFF00FFFF) = c ++ (0 : BitVec 8) ++ n := by
  rw [show (0xFF00FFFF : BitVec 32) = BitVec.allOnes 8 ++ (0 : BitVec 8) ++ BitVec.allOnes 16 by decide,
    append_and_append, append_and_append]
  simp only [BitVec.and_allOnes, BitVec.and_zero, BitVec.ofNat_eq_ofNat]

theorem hinit : Statement .hinit := fun _ => by decide

theorem hwrite (data : List Byte) : Statement (.hwrite data) := fun _ => by
  simp only [Op.matchesHeader, Instr.header, Instr.op, Op.code, Op.row, Instr.argField, mask_stream]; decide

theorem hfinal : Statement .hfinal := fun _ => by decide

theorem hread : Statement .hread := fun _ => by decide

theorem kdf (arg : BitVec 8) (password : List Byte) : Statement (.kdf arg password) := fun _ => by
  simp only [Op.matchesHeader, Instr.header, Instr.op, Op.code, Op.row, Instr.argField, mask_argument]; decide

theorem kexp (material : List Byte) : Statement (.kexp material) := fun _ => by
  simp only [Op.matchesHeader, Instr.header, Instr.op, Op.code, Op.row, Instr.argField, mask_stream]; decide

theorem ksread : Statement .ksread := fun _ => by decide

theorem subbytes (block : Block) : Statement (.subbytes block) := fun _ => by
  simp only [Op.matchesHeader, Instr.header, Instr.op, Instr.argField, Instr.payload, Vector.length_toList]; decide

theorem invsubbytes (block : Block) : Statement (.invsubbytes block) := fun _ => by
  simp only [Op.matchesHeader, Instr.header, Instr.op, Instr.argField, Instr.payload, Vector.length_toList]; decide

theorem shiftrows (block : Block) : Statement (.shiftrows block) := fun _ => by
  simp only [Op.matchesHeader, Instr.header, Instr.op, Instr.argField, Instr.payload, Vector.length_toList]; decide

theorem invshiftrows (block : Block) : Statement (.invshiftrows block) := fun _ => by
  simp only [Op.matchesHeader, Instr.header, Instr.op, Instr.argField, Instr.payload, Vector.length_toList]; decide

theorem mixcolumns (block : Block) : Statement (.mixcolumns block) := fun _ => by
  simp only [Op.matchesHeader, Instr.header, Instr.op, Instr.argField, Instr.payload, Vector.length_toList]; decide

theorem invmixcolumns (block : Block) : Statement (.invmixcolumns block) := fun _ => by
  simp only [Op.matchesHeader, Instr.header, Instr.op, Instr.argField, Instr.payload, Vector.length_toList]; decide

theorem addroundkey (arg : BitVec 8) (block : Block) : Statement (.addroundkey arg block) := fun _ => by
  simp only [Op.matchesHeader, Instr.header, Instr.op, Op.code, Op.row, Instr.argField, mask_round, Instr.payload,
    Vector.length_toList]
  decide

theorem enc (buffer : List Byte) : Statement (.enc buffer) := fun _ => by
  simp only [Op.matchesHeader, Instr.header, Instr.op, Op.code, Op.row, Instr.argField, mask_stream]; decide

theorem dec (buffer : List Byte) : Statement (.dec buffer) := fun _ => by
  simp only [Op.matchesHeader, Instr.header, Instr.op, Op.code, Op.row, Instr.argField, mask_stream]; decide

end Sys2Proof.Laws.RowOfHeader
end

