-- ==== Sys2Proof/Tests/Slice0.lean ====
section
/-!
SUPPORT. The model's own tests. `smoke_…`: ill-formed terms that WellFormed refuses. `test_…`: the words and values of
spec/95_test_vectors.md (the vector is named in each docstring). `witness_…`: for each obligation with hypotheses, a
concrete state and operands that meet all of them together, one per clause, at the boundary of its range.
-/

namespace Sys2Proof.Tests

-- one theorem at a time: each kernel evaluation waits for the theorems before it
set_option Elab.async false

open Sys2Proof Sys2Proof.Machine

/-! ## Helpers -/

/-- `n` bytes written as one hexadecimal number, in stream order (R79). -/
def bytes (n w : Nat) : List Byte := (List.range n).map fun i => BitVec.ofNat 8 (w >>> (8 * (n - 1 - i)))

/-- A block written as one hexadecimal number. -/
def block (w : Nat) : Block := blockOfBytes (bytes 16 w)

/-- The responses at the end of a run; none if it did not answer a next state. -/
def responses (o : Host.Outcome State Fault Refusal) : Option (List Response) :=
  match o with
  | .next s => some s.output
  | .fault _ => none
  | .refused _ => none

/-- A property of the state at the end of a run. -/
def endsIn (p : State → Bool) (o : Host.Outcome State Fault Refusal) : Bool :=
  match o with
  | .next s => p s
  | .fault _ => false
  | .refused _ => false

/-- The reset state with the bytes of commands issued. -/
def issued (input : List Byte) : State := { State.reset with input := input }

/-- A state with an open or finished hash, all registers given. -/
def hashing (phase : Phase) (bufLen : BitVec 6) (nBlocks : BitVec 55) : State :=
  { State.reset with hash := { State.reset.hash with phase := phase, bufLen := bufLen, nBlocks := nBlocks } }

/-- The state after KEXP of a key, from reset. -/
def keyed (material : List Byte) : State :=
  { State.reset with
    keys :=
      { rks := expandKey (material.length / 4) material State.reset.keys.rks
        nk := BitVec.ofNat 4 (material.length / 4)
        valid := true } }

/-- The key `000102..0f` (V36, V51). -/
def key128 : List Byte := bytes 16 0x000102030405060708090a0b0c0d0e0f

/-- The key of V52. -/
def key192 : List Byte := bytes 24 0x000102030405060708090a0b0c0d0e0f1011121314151617

/-- The key of V53. -/
def key256 : List Byte := bytes 32 0x000102030405060708090a0b0c0d0e0f101112131415161718191a1b1c1d1e1f

/-- The bytes of "password" (V25). -/
def password : List Byte := bytes 8 0x70617373776f7264

/-! ## WellFormed refuses what no header can carry (R71) -/

theorem smoke_hwrite : (Instr.hwrite (List.replicate 65536 0)).wellFormed = false := by
  simp only [Instr.wellFormed, fitsLen, List.length_replicate]; decide
theorem smoke_kdf : (Instr.kdf 16 (List.replicate 65536 0)).wellFormed = false := by
  simp only [Instr.wellFormed, fitsLen, List.length_replicate]; decide
theorem smoke_kexp : (Instr.kexp (List.replicate 65536 0)).wellFormed = false := by
  simp only [Instr.wellFormed, fitsLen, List.length_replicate]; decide
theorem smoke_enc : (Instr.enc (List.replicate 65536 0)).wellFormed = false := by
  simp only [Instr.wellFormed, fitsLen, List.length_replicate]; decide
theorem smoke_dec : (Instr.dec (List.replicate 65536 0)).wellFormed = false := by
  simp only [Instr.wellFormed, fitsLen, List.length_replicate]; decide

/-- The longest payload a header can carry is well formed (R71). -/
theorem smoke_longest : (Instr.hwrite (List.replicate 65535 0)).wellFormed = true := by
  simp only [Instr.wellFormed, fitsLen, List.length_replicate]; decide

/-! ## Decoding: words written out from the spec -/

/-- V2. -/
theorem test_decode_hinit : decode (bytes 4 0x01000000) = .command .hinit [] := by decide +kernel
/-- P1. -/
theorem test_decode_hwrite : decode (bytes 6 0x020000026263) = .command (.hwrite [0x62, 0x63]) [] := by decide +kernel
/-- P1; the bytes after the command stay. -/
theorem test_decode_hfinal : decode (bytes 8 0x0300000004000000) = .command .hfinal [0x04, 0, 0, 0] := by decide +kernel
/-- P1. -/
theorem test_decode_hread : decode (bytes 4 0x04000000) = .command .hread [] := by decide +kernel
/-- P5. -/
theorem test_decode_kdf : decode (bytes 6 0x082800027077) = .command (.kdf 40 [0x70, 0x77]) [] := by decide +kernel
/-- V40. -/
theorem test_decode_kexp : decode (bytes 20 0x100000102b7e151628aed2a6abf7158809cf4f3c) =
    .command (.kexp (bytes 16 0x2b7e151628aed2a6abf7158809cf4f3c)) [] := by decide +kernel
/-- V40. -/
theorem test_decode_ksread : decode (bytes 4 0x11000000) = .command .ksread [] := by decide +kernel
/-- V32. -/
theorem test_decode_subbytes : decode (bytes 20 0x2000001000102030405060708090a0b0c0d0e0f0) =
    .command (.subbytes (block 0x00102030405060708090a0b0c0d0e0f0)) [] := by decide +kernel
/-- V32. -/
theorem test_decode_invsubbytes : decode (bytes 20 0x2100001063cab7040953d051cd60e0e7ba70e18c) =
    .command (.invsubbytes (block 0x63cab7040953d051cd60e0e7ba70e18c)) [] := by decide +kernel
/-- V33. -/
theorem test_decode_shiftrows : decode (bytes 20 0x22000010000102030405060708090a0b0c0d0e0f) =
    .command (.shiftrows (block 0x000102030405060708090a0b0c0d0e0f)) [] := by decide +kernel
/-- V33. -/
theorem test_decode_invshiftrows : decode (bytes 20 0x2300001000050a0f04090e03080d02070c01060b) =
    .command (.invshiftrows (block 0x00050a0f04090e03080d02070c01060b)) [] := by decide +kernel
/-- V34. -/
theorem test_decode_mixcolumns : decode (bytes 20 0x24000010db135345f20a225c01010101c6c6c6c6) =
    .command (.mixcolumns (block 0xdb135345f20a225c01010101c6c6c6c6)) [] := by decide +kernel
/-- V35. -/
theorem test_decode_invmixcolumns : decode (bytes 20 0x250000108e4da1bc9fdc589d01010101c6c6c6c6) =
    .command (.invmixcolumns (block 0x8e4da1bc9fdc589d01010101c6c6c6c6)) [] := by decide +kernel
/-- V36. -/
theorem test_decode_addroundkey : decode (bytes 20 0x260100105f72641557f5bc92f7be3b291db9f91a) =
    .command (.addroundkey 1 (block 0x5f72641557f5bc92f7be3b291db9f91a)) [] := by decide +kernel
/-- V51. -/
theorem test_decode_enc : decode (bytes 20 0x3000001000112233445566778899aabbccddeeff) =
    .command (.enc (bytes 16 0x00112233445566778899aabbccddeeff)) [] := by decide +kernel
/-- P5. -/
theorem test_decode_dec : decode (bytes 12 0x310000080000000000000000) =
    .command (.dec (bytes 8 0)) [] := by decide +kernel

/-- The illegal headers of V57, each with a payload of the length its `LEN` states: every one is illegal, and its payload
is taken with it. -/
theorem test_decode_illegal :
    ([0x00000000, 0x05000000, 0x27000010, 0x32000010, 0xff000000, 0x01000001, 0x01010000, 0x02010003, 0x03000001,
      0x04000020, 0x11000001, 0x10010010, 0x20000000, 0x2000000f, 0x20000011, 0x20010010, 0x26000000, 0x26050011,
      0x30010010, 0x31ff0010] : List (BitVec 32)).all (fun h =>
      match decode (be32 h ++ List.replicate (h.extractLsb' 0 16).toNat 0 ++ [0x01]) with
      | .illegal _ rest => rest == [0x01]
      | .command _ _ => false
      | .incomplete => false) = true := by decide +kernel

/-- A header cut short, and a payload cut short, are no whole command (R70, R71). -/
theorem test_decode_incomplete : decode (bytes 3 0x010000) = .incomplete ∧ decode (bytes 5 0x0200000261) = .incomplete := by
  decide +kernel

/-- The rows of the opcode map agree with the formats: each `match` is `OPC` and the fixed fields (R73, R75). -/
theorem test_rows : Op.all.all (fun op =>
    match op.format with
    | .n => op.row == (op.code ++ (0 : BitVec 24), 0xFFFFFFFF)
    | .s => op.row == (op.code ++ (0 : BitVec 24), 0xFFFF0000)
    | .a => op.row == (op.code ++ (0 : BitVec 24), 0xFF000000)
    | .b => op.row == (op.code ++ (16 : BitVec 24), 0xFFFFFFFF)
    | .r => op.row == (op.code ++ (16 : BitVec 24), 0xFF00FFFF)) = true := by decide +kernel

/-- No header matches two rows: two rows differ in a bit that both masks keep (R75). -/
theorem test_rows_apart : Op.all.Pairwise fun a b => (a.row.1 &&& b.row.2) ≠ (b.row.1 &&& a.row.2) := by decide +kernel

/-- The host's probe reads each row's own command. -/
theorem test_table_words : Op.all.map (fun op => (decodeTableWord 32 op.row.1.toNat).map Instr.op) = Op.all.map some := by
  decide +kernel

/-- The command placed by `withFetchWord` is the one the next step runs: HINIT opens a message, and ADDROUNDKEY answers
`NoSchedule` after reset (V36). -/
theorem test_fetch_word :
    endsIn (fun s => s.hash.phase == .absorbing && s.input == [] && s.output == [.ok []])
      (step (State.reset.withFetchWord 32 0x01000000)) = true ∧
    responses (step (State.reset.withFetchWord 32 0x26000010)) = some [.error .noSchedule] := by decide +kernel

/-! ## HashEngine -/

/-- P1, first state line. -/
theorem test_hinit : endsIn (fun s => s.hash.phase == .absorbing && s.hash.bufLen == 0 && s.hash.nBlocks == 0 &&
    s.hash.h == #v[0x6a09e667, 0xbb67ae85, 0x3c6ef372, 0xa54ff53a, 0x510e527f, 0x9b05688c, 0x1f83d9ab, 0x5be0cd19])
    (exec .hinit State.reset) = true := by decide +kernel

/-- The check values of R102. -/
theorem test_word_functions : bigSigma0 0x6a09e667 = 0xce20b47e ∧ bigSigma1 0x510e527f = 0x3587272b ∧
    ch 0x510e527f 0x9b05688c 0x1f83d9ab = 0x1f85c98c ∧ maj 0x6a09e667 0xbb67ae85 0x3c6ef372 = 0x3a6fe667 ∧
    smallSigma0 0x00000001 = 0x02004000 ∧ smallSigma1 0x00000001 = 0x0000a000 := by decide +kernel

/-- V10: the working words after round 0 of the padded block of "abc". -/
theorem test_hash_round : hashRound (Working.load iv256) (k256.getD 0 0, 0x61626380) =
    { a := 0x5d6aebcd, b := 0x6a09e667, c := 0xbb67ae85, d := 0x3c6ef372,
      e := 0xfa2a4622, f := 0x510e527f, g := 0x9b05688c, h := 0x1f83d9ab } := by decide +kernel

/-- V14: 64 bytes compress one block and leave the buffer empty. -/
theorem test_hwrite_block : endsIn (fun s => s.hash.bufLen == 0 && s.hash.nBlocks == 1 && s.hash.h ==
    #v[0xdf5bb81c, 0xe81e0626, 0xfb45a894, 0x4fd40f31, 0xb25e6816, 0xd6d499c1, 0xab904929, 0x00635e66])
    (execAll [.hinit, .hwrite (List.replicate 64 0x61)] State.reset) = true := by decide +kernel

/-- V22: the limit of `NBLOCKS`. -/
theorem test_hwrite_overflow :
    responses (exec (.hwrite []) (hashing .absorbing 63 0x7fffffffffffff)) = some [.ok []] ∧
    responses (exec (.hwrite [0]) (hashing .absorbing 63 0x7fffffffffffff)) = some [.error .lengthOverflow] ∧
    responses (exec (.hwrite (List.replicate 63 0)) (hashing .absorbing 0 0x7fffffffffffff)) = some [.ok []] ∧
    endsIn (fun s => s.hash.nBlocks == 0x7fffffffffffff && s.hash.bufLen == 0)
      (exec (.hwrite [0]) (hashing .absorbing 63 0x7ffffffffffffe)) = true := by decide +kernel

/-- V2, and P1's state after HFINAL. -/
theorem test_hfinal : endsIn (fun s => s.hash.phase == .finalized && s.hash.bufLen == 0 && s.hash.nBlocks == 0 && s.hash.h ==
    #v[0xba7816bf, 0x8f01cfea, 0x414140de, 0x5dae2223, 0xb00361a3, 0x96177a9c, 0xb410ff61, 0xf20015ad])
    (execAll [.hinit, .hwrite [0x61, 0x62, 0x63], .hfinal] State.reset) = true := by decide +kernel

/-- V12: the shortest message that needs the second padding block; the last padded block stays in `BUF` (R110). -/
theorem test_hfinal_two_blocks : endsIn (fun s =>
    digestBytes s.hash.h == bytes 32 0xb35439a4ac6f0948b6d6f9e3c6af0f5f590ce20f1bde7090ef7970686ec6738a &&
    s.hash.buf.toList == bytes 64 0x1c0)
    (execAll [.hinit, .hwrite (List.replicate 56 0x61), .hfinal] State.reset) = true := by decide +kernel

/-- V1: the digest of the empty message, read twice. -/
theorem test_hread : (responses (execAll [.hinit, .hfinal, .hread, .hread] State.reset)).map (List.drop 2) = some
    [.ok (bytes 32 0xe3b0c44298fc1c149afbf4c8996fb92427ae41e4649b934ca495991b7852b855),
     .ok (bytes 32 0xe3b0c44298fc1c149afbf4c8996fb92427ae41e4649b934ca495991b7852b855)] := by decide +kernel

/-- V21: phase errors after reset. -/
theorem test_phase_errors :
    responses (execAll [.hwrite [0x61, 0x62, 0x63], .hfinal, .hread] State.reset) =
      some [.error .protocolError, .error .protocolError, .error .protocolError] := by decide +kernel

/-! ## KeyDerivation -/

/-- V25 and V29: an open hash is discarded. -/
theorem test_kdf : (responses (execAll [.hinit, .hwrite (bytes 5 0x68656c6c6f), .kdf 16 password, .hread] State.reset)).map
    (List.drop 2) = some [.ok (bytes 16 0x5e884898da28047151d0e56f8dc62927),
      .ok (bytes 32 0x5e884898da28047151d0e56f8dc6292773603d0d6aabbdd62a11ef721d1542d8)] := by decide +kernel

/-- V28: KDF errors. -/
theorem test_kdf_errors : (List.map (fun l => responses (exec (.kdf l password) State.reset)) [0, 15, 17, 31, 33, 255]) =
    [some [.error .invalidKeySize], some [.error .invalidKeySize], some [.error .invalidKeySize],
     some [.error .invalidKeySize], some [.error .invalidKeyLength], some [.error .invalidKeyLength]] := by decide +kernel

/-! ## KeySchedule -/

/-- V41: `NK = 6`, its first new round key and its last one. -/
theorem test_kexp : endsIn (fun s => s.keys.valid && s.keys.nk == 6 &&
    (roundKey s.keys.rks 1).toList == bytes 16 0x62f8ead2522c6b7bfe0c91f72402f5a5 &&
    (roundKey s.keys.rks 12).toList == bytes 16 0xe98ba06f448c773c8ecc720401002202)
    (exec (.kexp (bytes 24 0x8e73b0f7da0e6452c810f32b809079e562f8ead2522c6b7b)) State.reset) = true := by decide +kernel

/-- V43: KEXP of other lengths. -/
theorem test_kexp_errors : ([0, 15, 17, 20, 33].map fun n => responses (exec (.kexp (List.replicate n 0)) State.reset)) =
    List.replicate 5 (some [.error .invalidKeySize]) := by decide +kernel

/-- V42: the 240 bytes of the 256-bit schedule begin with the key, and end with round key 14. -/
theorem test_ksread :
    (match responses (execAll [.kexp (bytes 32 0x603deb1015ca71be2b73aef0857d77811f352c073b6108d72d9810a30914dff4), .ksread]
        State.reset) with
      | some [.ok [], .ok out] => out.length == 240 &&
        out.take 48 == bytes 48
          0x603deb1015ca71be2b73aef0857d77811f352c073b6108d72d9810a30914dff49ba354118e6925afa51a8b5f2067fcde &&
        out.drop 224 == bytes 16 0xfe4890d1e6188d0b046df344706c631e
      | _ => false) = true := by decide +kernel

/-- V43: KSREAD after reset. -/
theorem test_ksread_error : responses (exec .ksread State.reset) = some [.error .noSchedule] := by decide +kernel

/-! ## RoundEngine -/

/-- V30: field arithmetic. -/
theorem test_field : xtime 0x80 = 0x1b ∧ xtime 0xff = 0xe5 ∧ multiply 0x57 0x83 = 0xc1 ∧ multiply 0x57 0x13 = 0xfe ∧
    multiply 0xff 0xff = 0x13 ∧ multiply 0x53 0xca = 0x01 := by decide +kernel

/-- V31: spot values. -/
theorem test_tables : sbox 0x00 = 0x63 ∧ sbox 0x10 = 0xca ∧ sbox 0x9a = 0xb8 ∧ sbox 0xfe = 0xbb ∧ invSbox 0x00 = 0x52 ∧
    invSbox 0x7c = 0x01 ∧ invSbox 0xff = 0x7d := by decide +kernel

/-- V32. -/
theorem test_subbytes : responses (exec (.subbytes (block 0x00102030405060708090a0b0c0d0e0f0)) State.reset) =
    some [.ok (bytes 16 0x63cab7040953d051cd60e0e7ba70e18c)] := by decide +kernel
/-- V32. -/
theorem test_invsubbytes : responses (exec (.invsubbytes (block 0x63cab7040953d051cd60e0e7ba70e18c)) State.reset) =
    some [.ok (bytes 16 0x00102030405060708090a0b0c0d0e0f0)] := by decide +kernel
/-- V33. -/
theorem test_shiftrows : responses (exec (.shiftrows (block 0x000102030405060708090a0b0c0d0e0f)) State.reset) =
    some [.ok (bytes 16 0x00050a0f04090e03080d02070c01060b)] := by decide +kernel
/-- V33. -/
theorem test_invshiftrows : responses (exec (.invshiftrows (block 0x000102030405060708090a0b0c0d0e0f)) State.reset) =
    some [.ok (bytes 16 0x000d0a0704010e0b0805020f0c090603)] := by decide +kernel
/-- V34, first line. -/
theorem test_mixcolumns : responses (exec (.mixcolumns (block 0xdb135345f20a225c01010101c6c6c6c6)) State.reset) =
    some [.ok (bytes 16 0x8e4da1bc9fdc589d01010101c6c6c6c6)] := by decide +kernel
/-- V35, third line: the columns of the inverse matrix. -/
theorem test_invmixcolumns : responses (exec (.invmixcolumns (block 0x01000000000100000000010000000001)) State.reset) =
    some [.ok (bytes 16 0x0e090d0b0b0e090d0d0b0e09090d0b0e)] := by decide +kernel
/-- V36: round 1 and the last legal round. -/
theorem test_addroundkey :
    responses (exec (.addroundkey 1 (block 0x5f72641557f5bc92f7be3b291db9f91a)) (keyed key128)) =
      some [.ok (bytes 16 0x89d810e8855ace682d1843d8cb128fe4)] ∧
    responses (exec (.addroundkey 10 (block 0)) (keyed key128)) =
      some [.ok (bytes 16 0x13111d7fe3944a17f307a78b4d2b30c5)] := by decide +kernel
/-- V36: errors. -/
theorem test_addroundkey_errors :
    responses (exec (.addroundkey 11 (block 0)) (keyed key128)) = some [.error .badRound] ∧
    responses (exec (.addroundkey 200 (block 0)) State.reset) = some [.error .noSchedule] := by decide +kernel

/-! ## CipherDriver -/

/-- V52: AES-192. -/
theorem test_enc : responses (exec (.enc (bytes 16 0x00112233445566778899aabbccddeeff)) (keyed key192)) =
    some [.ok (bytes 16 0xdda97ca4864cdfe06eaf70a0ec0d7191)] := by decide +kernel
/-- V56: the order of the two checks, and the empty buffer. -/
theorem test_enc_errors :
    responses (exec (.enc (List.replicate 17 0)) State.reset) = some [.error .shortBlock] ∧
    responses (exec (.enc (List.replicate 16 0)) State.reset) = some [.error .noSchedule] ∧
    responses (exec (.enc []) (keyed key128)) = some [.ok []] := by decide +kernel
/-- V53: AES-256. -/
theorem test_dec : responses (exec (.dec (bytes 16 0x8ea2b7ca516745bfeafc49904b496089)) (keyed key256)) =
    some [.ok (bytes 16 0x00112233445566778899aabbccddeeff)] := by decide +kernel
/-- V56: DEC of 40 bytes. -/
theorem test_dec_errors : responses (exec (.dec (List.replicate 40 0)) (keyed key128)) = some [.error .shortBlock] := by
  decide +kernel

/-! ## The machine -/

/-- R77 through a step, with a header of V57: its payload goes with it, and the next command stays whole. -/
theorem test_step_illegal : endsIn (fun s => s.input == [0x01, 0, 0, 0] && s.output == [.error .illegalCommand])
    (step (issued (bytes 11 0x0201000361626301000000))) = true := by decide +kernel

/-- The wire form of a response: an error has no output (R72, R224), and V32's answer has 16 bytes. -/
theorem test_response_bytes : (Response.error .illegalCommand).bytes = bytes 4 0x10000000 ∧
    (Response.ok (bytes 16 0x63cab7040953d051cd60e0e7ba70e18c)).bytes =
      bytes 20 0x0000001063cab7040953d051cd60e0e7ba70e18c := by decide +kernel

/-! ## Witnesses: the hypotheses of the obligations can be met -/

/-- A concrete block whose 16 bytes are the numbers 0 to 15. -/
def counting : Block := block 0x000102030405060708090a0b0c0d0e0f

theorem witness_DecodeOfEncodeIsTheCommand :
    (Instr.kdf 255 password).wellFormed = true ∧ (Instr.hwrite []).wellFormed = true ∧
    (Instr.addroundkey 255 counting).wellFormed = true := by decide +kernel

theorem witness_EncodeOfDecodeIsTheBytes : decode (bytes 7 0x02000002626300) = .command (.hwrite [0x62, 0x63]) [0x00] := by
  decide +kernel

theorem witness_HeaderIsTheCommandOfItsRow :
    ([0x61] : List Byte).length < 2 ^ 16 ∧ Op.matchesHeader .hwrite ((0x02 : BitVec 8) ++ (0 : BitVec 8) ++ BitVec.ofNat 16 1) = true ∧
    decode (be32 ((0x02 : BitVec 8) ++ (0 : BitVec 8) ++ BitVec.ofNat 16 1) ++ [0x61] ++ []) = .command (.hwrite [0x61]) [] := by
  decide +kernel

theorem witness_IllegalHeaderIsDiscardedWithItsPayload :
    ([0x61] : List Byte).length < 2 ^ 16 ∧ (issued (bytes 6 0x010000016104)).resetIn = false ∧
    (issued (bytes 6 0x010000016104)).input = be32 ((0x01 : BitVec 8) ++ (0 : BitVec 8) ++ BitVec.ofNat 16 1) ++ [0x61] ++ [0x04] ∧
    Op.all.all (fun op => !op.matchesHeader ((0x01 : BitVec 8) ++ (0 : BitVec 8) ++ BitVec.ofNat 16 1)) = true := by decide +kernel

theorem witness_StepRunsTheDecodedCommand :
    (issued (bytes 8 0x0300000004000000)).resetIn = false ∧ Instr.hfinal.wellFormed = true ∧
    (issued (bytes 8 0x0300000004000000)).input = encode .hfinal ++ bytes 4 0x04000000 ∧
    decode (issued (bytes 8 0x0300000004000000)).input = .command .hfinal (bytes 4 0x04000000) := by decide +kernel

/-- The shortest and the longest proper part of a command. -/
theorem witness_StepWaitsForAWholeCommand :
    (issued []).resetIn = false ∧ (Instr.hwrite [0x61]).wellFormed = true ∧
    (issued []).input ++ bytes 5 0x0200000161 = encode (.hwrite [0x61]) ∧
    (issued (bytes 4 0x02000001)).input ++ [0x61] = encode (.hwrite [0x61]) ∧ ([0x61] : List Byte) ≠ [] := by
  decide +kernel

/-- A state with an open message of 3 bytes and a valid schedule: its invariants hold, and a step runs HFINAL. -/
theorem witness_EveryStepKeepsTheInvariants : ∃ s t : State,
    s.Inv ∧ s.hash.phase = .absorbing ∧ s.keys.valid = true ∧ step s = .next t ∧ t.hash.phase = .finalized := by
  let hs : HashState :=
    { h := iv256, buf := Vector.ofFn fun i => [0x61, 0x62, 0x63].getD i.val 0, bufLen := 3, nBlocks := 0, phase := .absorbing }
  refine ⟨{ keyed key128 with hash := hs, input := bytes 4 0x03000000 }, _, ⟨⟨fun _ => ⟨[0x61, 0x62, 0x63], ?_⟩, ?_⟩, ?_⟩,
    rfl, rfl, rfl, rfl⟩
  · exact ⟨rfl, by simp [hs, compressAll, wholeBlocks], by decide +kernel⟩
  · intro h; cases h
  · intro _
    exact ⟨Or.inl rfl, (expandKey_spec (nk := 4) (Or.inl rfl) key128 State.reset.keys.rks).2.1⟩

theorem witness_ResetEventTakesTheResetValues : { issued [0x01] with resetIn := true }.resetIn = true := rfl

theorem witness_OnlyResetClearsTheSchedule :
    (keyed key128).resetIn = false ∧ (keyed key128).keys.valid = true ∧ step (keyed key128) = .next (keyed key128) ∧
    State.reset.keys.valid = false ∧
    endsIn (fun t => t.keys.valid) (exec (.kexp key128) State.reset) = true :=
  ⟨rfl, rfl, rfl, rfl, by decide +kernel⟩

/-- Two states after reset that differ in `H` and in `RKS`, with the same bytes issued. -/
theorem witness_ResetLeavesNothingReadable : ∃ s t : State,
    s.hash.phase = .idle ∧ s.keys.valid = false ∧ t.hash.phase = .idle ∧ t.keys.valid = false ∧
    s.input = t.input ∧ s.output = t.output ∧ s.resetIn = t.resetIn ∧ s.hash.h ≠ t.hash.h ∧ s.keys.rks ≠ t.keys.rks ∧
    Op.ksread ∈ [Op.ksread, .addroundkey, .enc, .dec] :=
  ⟨issued [0x04, 0, 0, 0],
   { issued [0x04, 0, 0, 0] with
     hash := { State.reset.hash with h := iv256 }
     keys := { (keyed key128).keys with valid := false } },
   rfl, rfl, rfl, rfl, rfl, rfl, rfl, by decide +kernel, by decide +kernel, by decide⟩

/-- Two states that agree on all that is defined and differ in `BUF` above `BUFLEN`, in `NK` and in `RKS`. -/
theorem witness_UndefinedBitsStayUnobserved : ∃ s t : State,
    s.Agree t ∧ s.hash.phase = .absorbing ∧ s.hash.buf ≠ t.hash.buf ∧ s.keys.rks ≠ t.keys.rks ∧ s.keys.nk ≠ t.keys.nk :=
  ⟨hashing .absorbing 0 0,
   { hashing .absorbing 0 0 with
     hash := { (hashing .absorbing 0 0).hash with buf := Vector.replicate 64 0x61 }
     keys := { (keyed key128).keys with valid := false } },
   ⟨rfl, rfl, rfl, ⟨rfl, fun _ => ⟨rfl, rfl, rfl, rfl⟩, fun _ => rfl⟩, ⟨rfl, fun h => nomatch h⟩⟩,
   rfl, by decide +kernel, by decide +kernel, by decide +kernel⟩

theorem witness_CommandsWriteOnlyTheirRegisters : ∃ t, exec (.kdf 16 password) State.reset = .next t := ⟨_, rfl⟩

/-- Two states that agree on what HREAD reads and differ in the schedule. -/
theorem witness_SameReadsGiveSameResponseAndWrites :
    ∀ r ∈ readSet Instr.hread.op, r.same (hashing .finalized 0 0) { keyed key128 with hash := (hashing .finalized 0 0).hash } := by
  intro r hr
  have hr : r = .h ∨ r = .phase := by simpa [readSet, Instr.op] using hr
  rcases hr with rfl | rfl <;> rfl

theorem witness_TablesMeetTheirDefinitions :
    63 < 64 ∧ multiply 0x53 0xca = 0x01 ∧ ((0x00 : Byte) = 0 ∧ (0x00 : Byte) = 0) ∧ (0xff : Byte) ≠ 0 ∧ 1 ≤ 9 ∧ 9 < 10 := by decide +kernel

theorem witness_RepeatedCommandsAreIdempotent :
    (Instr.kexp key128).op ∉ [Op.hwrite, .hfinal] ∧ ∃ t, exec (.kexp key128) State.reset = .next t := ⟨by decide, _, rfl⟩

theorem witness_EmptyPayloads :
    (hashing .absorbing 63 0x7fffffffffffff).hash.phase = .absorbing ∧ (keyed key256).keys.valid = true ∧
    (16 : BitVec 8).toNat ∈ [16, 24, 32] ∧ (24 : BitVec 8).toNat ∈ [16, 24, 32] ∧ (32 : BitVec 8).toNat ∈ [16, 24, 32] :=
  ⟨rfl, rfl, by decide, by decide, by decide⟩

/-- An "error" of the table, a move of the table, a failure that is no row of it, and a command outside it. -/
theorem witness_PhaseTransitionTable :
    (∃ t, exec (.hwrite []) State.reset = .next t ∧ phaseTable State.reset.hash.phase (Instr.hwrite []).op = none) ∧
    (∃ t out, exec .hinit State.reset = .next t ∧ phaseTable State.reset.hash.phase Instr.hinit.op = some .absorbing ∧
      t.output = State.reset.output ++ [.ok out]) ∧
    (∃ t e, exec (.kdf 33 []) State.reset = .next t ∧ phaseTable State.reset.hash.phase (Instr.kdf 33 []).op = some .finalized ∧
      t.output = State.reset.output ++ [.error e]) ∧
    Instr.ksread.op ∉ [Op.hinit, .hwrite, .hfinal, .hread, .kdf] :=
  ⟨⟨_, rfl, rfl⟩, ⟨_, [], rfl, rfl, rfl⟩, ⟨_, .invalidKeyLength, rfl, rfl, rfl⟩, by decide⟩

theorem witness_HinitStartsAMessage :
    ([] : List Byte).length < 2 ^ 16 ∧ ((0x01 : BitVec 8) ≠ 0 ∨ ([] : List Byte) ≠ []) ∧
    ([0x61] : List Byte).length < 2 ^ 16 ∧ ((0x00 : BitVec 8) ≠ 0 ∨ ([0x61] : List Byte) ≠ []) ∧
    ∃ t u, exec .hinit State.reset = .next t ∧ exec .hinit t = .next u :=
  ⟨by decide, by decide, by decide, by decide, _, _, rfl, rfl⟩

/-- The last byte before the limit, and 63 bytes at the limit (V22). -/
theorem witness_HwriteAbsorbsTheChunk :
    (hashing .absorbing 63 0x7ffffffffffffe).hash.phase = .absorbing ∧
    (hashing .absorbing 63 0x7ffffffffffffe).hash.nBlocks.toNat +
      ((hashing .absorbing 63 0x7ffffffffffffe).hash.bufLen.toNat + ([0x61] : List Byte).length) / 64 ≤ 2 ^ 55 - 1 ∧
    (hashing .absorbing 0 0x7fffffffffffff).hash.nBlocks.toNat +
      ((hashing .absorbing 0 0x7fffffffffffff).hash.bufLen.toNat + (List.replicate 63 (0x61 : Byte)).length) / 64 ≤
      2 ^ 55 - 1 := by decide +kernel

/-- One byte at the limit with a full buffer (V22). -/
theorem witness_HwriteLengthOverflow :
    (hashing .absorbing 63 0x7fffffffffffff).hash.phase = .absorbing ∧
    2 ^ 55 - 1 < (hashing .absorbing 63 0x7fffffffffffff).hash.nBlocks.toNat +
      ((hashing .absorbing 63 0x7fffffffffffff).hash.bufLen.toNat + ([0x61] : List Byte).length) / 64 := by decide +kernel

theorem witness_HwriteIsChunkInvariant :
    (hashing .absorbing 63 0x7ffffffffffffe).hash.phase = .absorbing ∧
    (hashing .absorbing 63 0x7ffffffffffffe).hash.nBlocks.toNat +
      ((hashing .absorbing 63 0x7ffffffffffffe).hash.bufLen.toNat +
        ([[], [0x61], List.replicate 63 0x62] : List (List Byte)).flatten.length) / 64 ≤ 2 ^ 55 - 1 := by decide +kernel

/-- Both sides of the limit of one padding block, 55 and 56 bytes, and the full buffer (V11 to V13). -/
theorem witness_HfinalPadsAndFinishes :
    (hashing .absorbing 55 0).hash.phase = .absorbing ∧ (hashing .absorbing 55 0).hash.bufLen.toNat ≤ 55 ∧
    (hashing .absorbing 56 0).hash.phase = .absorbing ∧ ¬(hashing .absorbing 56 0).hash.bufLen.toNat ≤ 55 ∧
    (hashing .absorbing 63 0x7fffffffffffff).hash.phase = .absorbing ∧
    (hashing .finalized 0 0).hash.phase ≠ .absorbing ∧ State.reset.hash.phase ≠ .absorbing := by decide +kernel

theorem witness_HreadEmitsTheDigest :
    (hashing .finalized 0 0).hash.phase = .finalized ∧ (hashing .absorbing 0 0).hash.phase ≠ .finalized ∧
    State.reset.hash.phase ≠ .finalized := by decide +kernel

theorem witness_HashWordFunctions : 2 ∈ [2, 6, 7, 11, 13, 17, 18, 19, 22, 25] ∧ 25 ∈ [2, 6, 7, 11, 13, 17, 18, 19, 22, 25] ∧
    31 < 32 := by decide

/-- The padded block of "abc" (V10), and the first round's working words (`IV256`). -/
theorem witness_TransformRunsTheRounds :
    (bytes 64 (0x61626380 * 2 ^ 480 + 0x18)).length = 64 ∧ 15 < 16 ∧ 16 ≤ 16 ∧ 63 < 64 ∧
    iv256 = #v[0x6a09e667, 0xbb67ae85, 0x3c6ef372, 0xa54ff53a, 0x510e527f, 0x9b05688c, 0x1f83d9ab, 0x5be0cd19] := by
  decide +kernel

theorem witness_MessageScheduleRecurrence :
    (List.replicate 64 (0x61 : Byte)).length = 64 ∧ 15 < 16 ∧ 16 ≤ 16 ∧ 16 ≤ 63 ∧ 63 < 64 := by decide +kernel

theorem witness_HashCommandsComputeSha256 :
    (∀ c ∈ ([[], [0x61], [0x62, 0x63]] : List (List Byte)), c.length < 2 ^ 16) ∧
    ([[], [0x61], [0x62, 0x63]] : List (List Byte)).flatten.length < 2 ^ 61 := by decide +kernel

theorem witness_KdfEmitsTheTruncatedDigest :
    (16 : BitVec 8).toNat ∈ [16, 24, 32] ∧ (24 : BitVec 8).toNat ∈ [16, 24, 32] ∧ (32 : BitVec 8).toNat ∈ [16, 24, 32] ∧
    password.length < 2 ^ 16 ∧ ([] : List Byte).length < 2 ^ 16 := by decide +kernel

theorem witness_KdfEqualsTheHostsSequence : (32 : BitVec 8).toNat ∈ [16, 24, 32] ∧ password.length < 2 ^ 16 := by
  decide +kernel

/-- The first and last value of each range (V28). -/
theorem witness_KdfRejectsOtherLengths :
    (33 : BitVec 8).toNat > 32 ∧ (255 : BitVec 8).toNat > 32 ∧
    (0 : BitVec 8).toNat ≤ 32 ∧ (0 : BitVec 8).toNat ∉ [16, 24, 32] ∧
    (31 : BitVec 8).toNat ≤ 32 ∧ (31 : BitVec 8).toNat ∉ [16, 24, 32] := by decide +kernel

theorem witness_KexpBuildsTheSchedule :
    key128.length ∈ [16, 24, 32] ∧ key192.length ∈ [16, 24, 32] ∧ key256.length ∈ [16, 24, 32] ∧
    ([] : List Byte).length ∉ [16, 24, 32] ∧ (bytes 33 0).length ∉ [16, 24, 32] ∧
    7 < key256.length / 4 ∧ Config.scheduleWords (key192.length / 4) ≤ 52 := by decide +kernel

/-- Word 4 of V40 (rotate), word 12 of V42 (substitute only), and a word of each key length that is unchanged. -/
theorem witness_ScheduleTempBranches :
    legalNk 4 ∧ legalNk 6 ∧ legalNk 8 ∧ 4 % 4 = 0 ∧ (12 % 8 ≠ 0 ∧ 12 % 8 = 4) ∧
    (5 % 4 ≠ 0 ∧ ¬(4 = 8 ∧ 5 % 4 = 4)) ∧ (10 % 6 ≠ 0 ∧ ¬(6 = 8 ∧ 10 % 6 = 4)) ∧ (13 % 8 ≠ 0 ∧ ¬(8 = 8 ∧ 13 % 8 = 4)) :=
  ⟨Or.inl rfl, Or.inr (Or.inl rfl), Or.inr (Or.inr rfl), by decide, by decide, by decide, by decide, by decide⟩

/-- The same key, from reset and over another key's schedule. -/
theorem witness_SameKeySameSchedule :
    key192.length ∈ [16, 24, 32] ∧ (∃ s', exec (.kexp key192) State.reset = .next s') ∧
    (∃ t', exec (.kexp key192) (keyed key256) = .next t') ∧ 51 < Config.scheduleWords (key192.length / 4) :=
  ⟨by decide +kernel, ⟨_, rfl⟩, ⟨_, rfl⟩, by decide +kernel⟩

theorem witness_KsreadEmitsTheSchedule :
    (keyed key128).keys.valid = true ∧ legalNk (keyed key128).keys.nk.toNat ∧
    (keyed key192).keys.valid = true ∧ legalNk (keyed key192).keys.nk.toNat ∧
    (keyed key256).keys.valid = true ∧ legalNk (keyed key256).keys.nk.toNat ∧ 59 < 4 * ((keyed key256).keys.nk.toNat + 7) ∧
    State.reset.keys.valid = false ∧ key128.length ∈ [16, 24, 32] ∧ key256.length ∈ [16, 24, 32] :=
  ⟨rfl, Or.inl (by decide +kernel), rfl, Or.inr (Or.inl (by decide +kernel)), rfl,
   Or.inr (Or.inr (by decide +kernel)), by decide +kernel, rfl, by decide +kernel, by decide +kernel⟩

theorem witness_MixColumnsCommands : stateColumn counting 3 = #v[0x0c, 0x0d, 0x0e, 0x0f] := by decide +kernel

/-- Two blocks with one equal column and another that differs. -/
theorem witness_MixColumnsIsColumnwiseAndLinear :
    stateColumn counting 0 = stateColumn (block 0x00010203ffffffffffffffffffffffff) 0 ∧
    stateColumn counting 1 ≠ stateColumn (block 0x00010203ffffffffffffffffffffffff) 1 := by decide +kernel

/-- The last legal round and the first illegal one (V36), no schedule, and the all-zero block. -/
theorem witness_AddRoundKeyCommand :
    (keyed key128).keys.valid = true ∧ (10 : BitVec 8).toNat ≤ (keyed key128).keys.nk.toNat + 6 ∧
    (keyed key128).keys.nk.toNat + 6 < (11 : BitVec 8).toNat ∧ (keyed key256).keys.nk.toNat + 6 < (255 : BitVec 8).toNat ∧
    State.reset.keys.valid = false ∧ block 0 = Vector.replicate 16 0 := by decide +kernel

/-- Three blocks, the last of them; one byte short of a block, one byte more, and whole blocks without a schedule. -/
theorem witness_CipherCommandsTransformEveryBlock :
    (keyed key192).keys.valid = true ∧ (bytes 48 5).length % 16 = 0 ∧ ([] : List Byte).length % 16 = 0 ∧
    2 < (bytes 48 5).length / 16 ∧ (block 5).toList = ((bytes 48 5).drop (16 * 2)).take 16 ∧
    (bytes 15 0).length % 16 ≠ 0 ∧ (bytes 17 0).length % 16 ≠ 0 ∧ (bytes 16 0).length % 16 = 0 ∧
    ([] : List Byte).length % 16 = 0 ∧ State.reset.keys.valid = false := by decide +kernel

theorem witness_DriverRunsTheRounds :
    1 ≤ 9 ∧ 9 < (keyed key128).keys.rounds ∧ (keyed key256).keys.rounds = 14 := by decide +kernel

theorem witness_DecryptionUndoesEncryption : (keyed key256).keys.valid = true ∧ (bytes 32 7).length % 16 = 0 := by
  decide +kernel

/-- Pieces of zero, one and two blocks. -/
theorem witness_BlocksAreIndependent :
    (keyed key128).keys.valid = true ∧ ∀ p ∈ [[], bytes 16 1, bytes 32 2], p.length % 16 = 0 := by decide +kernel

theorem witness_KeyThenEncryptThenDecrypt : key192.length ∈ [16, 24, 32] ∧ (bytes 32 7).length % 16 = 0 := by decide +kernel

theorem witness_ErrorsChangeNothing :
    (∃ t e, exec .ksread State.reset = .next t ∧ t.output = State.reset.output ++ [.error e]) ∧
    (∃ t e, step (issued [0, 0, 0, 0]) = .next t ∧ t.output = (issued [0, 0, 0, 0]).output ++ [.error e]) :=
  ⟨⟨_, .noSchedule, rfl, rfl⟩, ⟨_, .illegalCommand, rfl, rfl⟩⟩

/-- Two checks that would both fail: the first is reported (R226); and a command whose checks all pass. -/
theorem witness_FirstFailingCheckIsReported :
    firstFailingCheck (.enc (bytes 17 0)) State.reset = some .shortBlock ∧
    firstFailingCheck (.addroundkey 200 counting) State.reset = some .noSchedule ∧
    firstFailingCheck (.kdf 40 []) State.reset = some .invalidKeyLength ∧
    firstFailingCheck (.hwrite [0]) (hashing .absorbing 63 0x7fffffffffffff) = some .lengthOverflow ∧
    firstFailingCheck (.enc (bytes 16 0)) (keyed key128) = none ∧
    (issued [0, 0, 0, 0]).resetIn = false ∧
    decode (issued [0, 0, 0, 0]).input = .illegal .unassignedOpcode [] := by decide +kernel

/-- The longest response of KSREAD, from a state that meets the key schedule's invariant. -/
theorem witness_ResponseHeaderCarriesTheOutputLength :
    Instr.ksread.wellFormed = true ∧ (keyed key256).keys.Inv ∧
    ∃ t, exec .ksread (keyed key256) = .next t ∧ t.output = (keyed key256).output ++ [.ok (scheduleBytes (keyed key256).keys)] :=
  ⟨rfl, fun _ => ⟨Or.inr (Or.inr rfl), (expandKey_spec (nk := 8) (Or.inr (Or.inr rfl)) key256 State.reset.keys.rks).2.1⟩,
   _, rfl, rfl⟩

end Sys2Proof.Tests
end

section

/-!
PROOFS. The invariants of 10_state.md R33 at reset and along every step: first the facts about the decoder, the checks and
the message the hash registers hold, then the statements O8, O9 and O10.
-/

namespace Sys2Proof

/-! ## A decoded command's payload fits its header -/

/-- What a whole legal command is made of (R73 to R75). -/
theorem decodeCommand_eq_command {opc arg : BitVec 8} {payload tail rest : List Byte} {i : Instr}
    (h : decodeCommand opc arg payload tail = .command i rest) :
    ∃ op, Op.ofCode opc = some op ∧ op.format.violation arg payload.length = none ∧
      i = op.assemble arg payload ∧ rest = tail := by
  unfold decodeCommand at h
  split at h
  · cases h
  next op hop =>
    split at h
    · cases h
    next hv => cases h; exact ⟨op, hop, hv, rfl, rfl⟩

/-- A command put together from a payload that fits `LEN` has a payload that fits `LEN` (R71, R74). -/
theorem assemble_payload_length_lt (op : Op) (arg : BitVec 8) {payload : List Byte} (h : payload.length < 2 ^ 16) :
    (op.assemble arg payload).payload.length < 2 ^ 16 := by
  cases op <;> simp [Op.assemble, Instr.payload] <;> exact h

/-- The payload of a decoded command fits the field `LEN` (R71). -/
theorem decode_payload_length_lt {bytes rest : List Byte} {i : Instr} (h : decode bytes = .command i rest) :
    i.payload.length < 2 ^ 16 := by
  unfold decode at h
  split at h
  next opc arg lenHi lenLo tail =>
    dsimp only at h
    split at h
    · cases h
    · obtain ⟨op, -, -, rfl, -⟩ := decodeCommand_eq_command h
      refine assemble_payload_length_lt op arg ?_
      have hlen : (lenHi ++ lenLo).toNat < 2 ^ 16 := (lenHi ++ lenLo).isLt
      rw [List.length_take]
      omega
  · cases h

end Sys2Proof

namespace Sys2Proof.Machine

/-! ## When a command's checks pass (R226) -/

/-- A check followed by others: none of them fails. -/
theorem check_eq_none {c : Prop} [Decidable c] {e : ErrorKind} {rest : Option ErrorKind} :
    (if c then some e else rest) = none ↔ ¬c ∧ rest = none := by
  split <;> simp_all

@[simp] theorem firstFailingCheck_hwrite_eq_none {data : List Byte} {s : State} :
    firstFailingCheck (.hwrite data) s = none ↔
      s.hash.phase = .absorbing ∧ s.hash.nBlocks.toNat + (s.hash.bufLen.toNat + data.length) / 64 < 2 ^ 55 := by
  simp only [firstFailingCheck, check_eq_none, ne_eq, not_not, and_true]
  exact and_congr_right fun _ => by omega

@[simp] theorem firstFailingCheck_hfinal_eq_none {s : State} :
    firstFailingCheck .hfinal s = none ↔ s.hash.phase = .absorbing := by
  simp [firstFailingCheck]

@[simp] theorem firstFailingCheck_hread_eq_none {s : State} :
    firstFailingCheck .hread s = none ↔ s.hash.phase = .finalized := by
  simp [firstFailingCheck]

@[simp] theorem firstFailingCheck_kexp_eq_none {material : List Byte} {s : State} :
    firstFailingCheck (.kexp material) s = none ↔ material.length ∈ [16, 24, 32] := by
  simp only [firstFailingCheck, check_eq_none, not_not, and_true]

@[simp] theorem firstFailingCheck_ksread_eq_none {s : State} :
    firstFailingCheck .ksread s = none ↔ s.keys.valid = true := by
  simp [firstFailingCheck]

@[simp] theorem firstFailingCheck_addroundkey_eq_none {arg : BitVec 8} {block : Block} {s : State} :
    firstFailingCheck (.addroundkey arg block) s = none ↔ s.keys.valid = true ∧ arg.toNat ≤ s.keys.rounds := by
  simp only [firstFailingCheck, check_eq_none, Bool.not_eq_false, Nat.not_lt, gt_iff_lt, and_true]
  rfl

@[simp] theorem firstFailingCheck_enc_eq_none {buffer : List Byte} {s : State} :
    firstFailingCheck (.enc buffer) s = none ↔ buffer.length % 16 = 0 ∧ s.keys.valid = true := by
  simp only [firstFailingCheck, check_eq_none, ne_eq, not_not, Bool.not_eq_false, and_true]

@[simp] theorem firstFailingCheck_dec_eq_none {buffer : List Byte} {s : State} :
    firstFailingCheck (.dec buffer) s = none ↔ buffer.length % 16 = 0 ∧ s.keys.valid = true := by
  simp only [firstFailingCheck, check_eq_none, ne_eq, not_not, Bool.not_eq_false, and_true]

/-! ## The message the hash registers hold (R33 (e)) -/

/-- HINIT opens the empty message (R104). -/
theorem hashInit_holds (hs : HashState) : (hashInit hs).Holds [] := by
  refine ⟨rfl, ?_, rfl⟩
  rw [List.take_nil, compressAll_short (by simp), hashInit_h]

/-- HWRITE's loop appends the chunk to the message held (R107). -/
theorem absorb_holds {hs : HashState} {msg : List Byte} (h : hs.Holds msg) (data : List Byte)
    (hn : hs.nBlocks.toNat + (hs.bufLen.toNat + data.length) / 64 < 2 ^ 55) :
    (absorb hs data).Holds (msg ++ data) := by
  obtain ⟨hlen, hh, hpend⟩ := h
  obtain ⟨-, hbl, hnb, hh', hpend'⟩ := absorb_spec data hs hn
  have hsplit : msg ++ data = msg.take (64 * hs.nBlocks.toNat) ++ (hs.pending ++ data) := by
    rw [show hs.pending = _ from hpend, ← List.append_assoc, List.take_append_drop]
  have hlen' : (msg ++ data).length = 64 * (absorb hs data).nBlocks.toNat + (absorb hs data).bufLen.toNat := by
    rw [hbl, hnb, List.length_append]; omega
  have htake : (msg.take (64 * hs.nBlocks.toNat)).length = 64 * hs.nBlocks.toNat := by
    rw [List.length_take]; omega
  refine ⟨hlen', ?_, ?_⟩
  · have hlt := bufLen_lt (absorb hs data)
    calc (absorb hs data).h
        = compressAll iv256 (msg ++ data) := by rw [hh', hh, ← compressAll_append (by omega), ← hsplit]
      _ = compressAll iv256 ((msg ++ data).take (64 * (absorb hs data).nBlocks.toNat)) := by
        conv_lhs => rw [← List.take_append_drop (64 * (absorb hs data).nBlocks.toNat) (msg ++ data)]
        refine compressAll_append_short ?_ ?_
        · rw [List.length_take]; omega
        · rw [List.length_drop]; omega
  · have hdrop : 64 * (absorb hs data).nBlocks.toNat =
        (msg.take (64 * hs.nBlocks.toNat)).length + 64 * ((hs.bufLen.toNat + data.length) / 64) := by omega
    rw [hsplit, hdrop, ← List.drop_drop, List.drop_left]
    exact hpend'

/-- Registers that hold a message hold fewer than 2^61 bytes (R33 (b)). -/
theorem HashState.Holds.length_lt {hs : HashState} {msg : List Byte} (h : hs.Holds msg) : msg.length < 2 ^ 61 := by
  have hb := bufLen_lt hs
  have hn := nBlocks_lt hs
  obtain ⟨hlen, -, -⟩ := h
  omega

/-- Registers with an open message meet R33 (e). -/
theorem HashState.Holds.inv {hs : HashState} {msg : List Byte} (h : hs.Holds msg) (hp : hs.phase = .absorbing) :
    hs.Inv :=
  ⟨fun _ => ⟨msg, h⟩, fun hf => by rw [hp] at hf; cases hf⟩

/-- HFINAL of registers that hold a message leaves a finished digest (R24, R114). -/
theorem HashState.Holds.hashFinal_inv {hs : HashState} {msg : List Byte} (h : hs.Holds msg) : (hashFinal hs).Inv :=
  ⟨fun hf => (nomatch hf), fun _ => ⟨msg, h.length_lt, hashFinal_of_holds h⟩⟩

/-! ## Every command keeps the invariants (R33) -/

/-- A command that succeeds leaves hash registers that meet R33 (e). -/
theorem hashOf_inv {i : Instr} {s : State} (hi : i.payload.length < 2 ^ 16) (hinv : s.hash.Inv)
    (hc : firstFailingCheck i s = none) : (hashOf i s.hash).Inv := by
  have ⟨hopen, _⟩ := hinv
  cases i with
  | hinit => exact (hashInit_holds s.hash).inv rfl
  | hwrite data =>
    obtain ⟨hp, hn⟩ := firstFailingCheck_hwrite_eq_none.mp hc
    obtain ⟨msg, hm⟩ := hopen hp
    exact (absorb_holds hm data hn).inv ((absorb_phase s.hash data).trans hp)
  | hfinal =>
    obtain ⟨msg, hm⟩ := hopen (firstFailingCheck_hfinal_eq_none.mp hc)
    exact hm.hashFinal_inv
  | kdf arg password =>
    have hlen : password.length < 2 ^ 16 := hi
    refine (absorb_holds (hashInit_holds s.hash) password ?_).hashFinal_inv
    simp only [hashInit_nBlocks, hashInit_bufLen, BitVec.ofNat_eq_ofNat, BitVec.toNat_zero]
    omega
  | _ => exact hinv

/-- A command that succeeds leaves key registers that meet R33 (d). -/
theorem keysOf_inv {i : Instr} {s : State} (hinv : s.keys.Inv) (hc : firstFailingCheck i s = none) :
    (keysOf i s.keys).Inv := by
  cases i with
  | kexp material =>
    obtain ⟨hnk, hofNat⟩ := legalNk_of_validKeyBytes (firstFailingCheck_kexp_eq_none.mp hc)
    obtain ⟨-, hrec, -⟩ := expandKey_spec hnk material s.keys.rks
    intro _
    simp only [keysOf, hofNat]
    exact ⟨hnk, hrec⟩
  | _ => exact hinv

/-- A command whose payload fits its header keeps the invariants of R33. -/
theorem exec_keeps_inv {i : Instr} {s t : State} (hi : i.payload.length < 2 ^ 16) (hinv : s.Inv)
    (h : exec i s = .next t) : t.Inv := by
  obtain ⟨e, -, rfl⟩ | ⟨hc, rfl⟩ := exec_cases h
  · exact hinv
  · obtain ⟨hhash, hkeys⟩ := hinv
    exact ⟨hashOf_inv hi hhash hc, keysOf_inv hkeys hc⟩

/-- An idle hash engine meets R33 (e): no message is open and none is finished. -/
theorem hashInv_of_idle {hs : HashState} (h : hs.phase = .idle) : hs.Inv :=
  ⟨fun hp => absurd (h.symm.trans hp) (by decide), fun hp => absurd (h.symm.trans hp) (by decide)⟩

/-- Key registers without a valid schedule meet R33 (d). -/
theorem keysInv_of_invalid {k : KeyState} (h : k.valid = false) : k.Inv := fun hv => by rw [h] at hv; cases hv

/-- Settles O8, by evaluation of the reset state. -/
theorem resetStateHasTheGivenValues : Obligations.ResetStateHasTheGivenValues := ⟨rfl, rfl, rfl, rfl⟩

/-- Settles O9: after reset the hash engine is idle and no schedule is valid. -/
theorem resetMeetsTheInvariants : Obligations.ResetMeetsTheInvariants :=
  ⟨hashInv_of_idle rfl, keysInv_of_invalid rfl⟩

/-- Settles O10, by cases on what a step can do: a command keeps the invariants by `exec_keeps_inv`, and the reset event
establishes them. -/
theorem everyStepKeepsTheInvariants : Obligations.EveryStepKeepsTheInvariants := by
  intro s t hinv hstep
  obtain ⟨-, h⟩ | ⟨-, i, rest, hd, h⟩ | ⟨-, e, rest, -, h⟩ | ⟨-, -, h⟩ := step_cases s
  · cases h.symm.trans hstep
    exact ⟨hashInv_of_idle rfl, keysInv_of_invalid rfl⟩
  · exact exec_keeps_inv (s := s.withInput rest) (decode_payload_length_lt hd) hinv (h.symm.trans hstep)
  · cases h.symm.trans hstep
    exact hinv
  · cases h.symm.trans hstep
    exact hinv

end Sys2Proof.Machine
end

section

/-!
PROOFS. What a command writes and reads (10_state.md R27, R36, R37): the statements O12, O15 and O16, each after the facts it
needs.
-/

namespace Sys2Proof.Machine

/-! ## The schedule's valid bit (R27) -/

/-- `RKS_VALID` after a command that succeeds: as before, except after KEXP. -/
theorem keysOf_valid (i : Instr) (k : KeyState) :
    (keysOf i k).valid = k.valid ∨ ((keysOf i k).valid = true ∧ ∃ material, i = .kexp material) := by
  cases i with
  | kexp material => exact Or.inr ⟨rfl, material, rfl⟩
  | _ => exact Or.inl rfl

/-- No command clears `RKS_VALID` (R27). -/
theorem exec_keeps_valid {i : Instr} {s t : State} (hv : s.keys.valid = true) (h : exec i s = .next t) :
    t.keys.valid = true := by
  obtain ⟨e, -, rfl⟩ | ⟨-, rfl⟩ := exec_cases h
  · exact hv
  · obtain hk | ⟨hk, -⟩ := keysOf_valid i s.keys
    · exact hk.trans hv
    · exact hk

/-- A command that sets `RKS_VALID` is a KEXP that succeeds (R27). -/
theorem kexp_of_exec_sets_valid {i : Instr} {s t : State} (hv : s.keys.valid = false) (h : exec i s = .next t)
    (ht : t.keys.valid = true) : ∃ material, i = .kexp material ∧ t.output = s.output ++ [.ok []] := by
  obtain ⟨e, -, rfl⟩ | ⟨-, rfl⟩ := exec_cases h
  · exact absurd (hv.symm.trans ht) (by decide)
  · obtain hk | ⟨-, material, rfl⟩ := keysOf_valid i s.keys
    · exact absurd (hv.symm.trans (hk.symm.trans ht)) (by decide)
    · exact ⟨material, rfl, rfl⟩

/-- Settles O12: without the reset event a step runs a command, answers an illegal header or waits, and no command
clears the bit. -/
theorem onlyResetClearsTheSchedule : Obligations.OnlyResetClearsTheSchedule := by
  refine ⟨?_, fun i s t => kexp_of_exec_sets_valid⟩
  intro s t hr hv hstep
  obtain ⟨hr', -⟩ | ⟨-, i, rest, -, h⟩ | ⟨-, e, rest, -, h⟩ | ⟨-, -, h⟩ := step_cases s
  · exact absurd (hr.symm.trans hr') (by decide)
  · exact exec_keeps_valid (s := s.withInput rest) hv (h.symm.trans hstep)
  · cases h.symm.trans hstep
    exact hv
  · cases h.symm.trans hstep
    exact hv

/-! ## What a command writes (R37) -/

theorem Register.same_refl (r : Register) (s : State) : r.same s s := by cases r <;> rfl

/-- A response changes no register. -/
theorem Register.same.respond_right {r : Register} {s t : State} {a : Response} (h : r.same s t) :
    r.same s (respond a t) := by cases r <;> exact h

theorem Register.same.respond_left {r : Register} {s t : State} {a : Response} (h : r.same s t) :
    r.same (respond a s) t := by cases r <;> exact h

/-- Hash states with the same registers are the same. -/
theorem HashState.ext {a b : HashState} (hh : a.h = b.h) (hbuf : a.buf = b.buf) (hl : a.bufLen = b.bufLen)
    (hn : a.nBlocks = b.nBlocks) (hp : a.phase = b.phase) : a = b := by
  cases a; cases b; congr

/-- Key states with the same registers are the same. -/
theorem KeyState.ext {a b : KeyState} (hrks : a.rks = b.rks) (hnk : a.nk = b.nk) (hv : a.valid = b.valid) : a = b := by
  cases a; cases b; congr

/-- A register that the table of R37 does not list for a command keeps its value. -/
theorem effectOf_frame {i : Instr} (s : State) {r : Register} (hr : r ∉ writeSet i.op) : r.same s (effectOf i s) := by
  cases i with
  | hinit =>
    cases r with
    | buf | rks | nk | valid => rfl
    | _ => simp [writeSet, Instr.op] at hr
  | hwrite data =>
    cases r with
    | phase => exact (absorb_phase s.hash data).symm
    | rks | nk | valid => rfl
    | _ => simp [writeSet, Instr.op] at hr
  | hfinal =>
    cases r with
    | nBlocks =>
      obtain ⟨-, -, hn, -, -⟩ := hashFinal_spec s.hash
      exact hn.symm
    | rks | nk | valid => rfl
    | _ => simp [writeSet, Instr.op] at hr
  | kdf arg password =>
    cases r with
    | rks | nk | valid => rfl
    | _ => simp [writeSet, Instr.op] at hr
  | kexp material =>
    cases r with
    | h | buf | bufLen | nBlocks | phase => rfl
    | _ => simp [writeSet, Instr.op] at hr
  | _ => exact Register.same_refl r s

/-- Settles O15: a command that fails changes the output alone, one that succeeds has the frame of `effectOf_frame`. -/
theorem commandsWriteOnlyTheirRegisters : Obligations.CommandsWriteOnlyTheirRegisters := by
  intro i s t h
  obtain ⟨e, -, rfl⟩ | ⟨-, rfl⟩ := exec_cases h
  · exact ⟨fun r _ => (Register.same_refl r s).respond_right, rfl, ⟨_, rfl⟩, rfl, rfl⟩
  · exact ⟨fun r hr => (effectOf_frame s hr).respond_right, rfl, ⟨_, rfl⟩, rfl, rfl⟩

/-! ## Hash states that hold the same message -/

/-- The registers agree on the chaining value, the counts and the pending bytes: all that HWRITE and HFINAL read. -/
def HashState.SameMessage (a b : HashState) : Prop :=
  a.h = b.h ∧ a.bufLen = b.bufLen ∧ a.nBlocks = b.nBlocks ∧ a.pending = b.pending

/-- After HINIT nothing of the registers before it is left to read (R104). -/
theorem hashInit_sameMessage (a b : HashState) : (hashInit a).SameMessage (hashInit b) := ⟨rfl, rfl, rfl, rfl⟩

/-- An empty buffer has no pending bytes. -/
theorem pending_of_empty {hs : HashState} (h : hs.bufLen = 0) : hs.pending = [] := by
  simp [HashState.pending, h]

/-- One turn of the HWRITE loop: both buffers fill up, or neither does (R107). -/
theorem absorbByte_sameMessage {a b : HashState} (h : a.SameMessage b) (x : Byte) :
    (absorbByte a x).SameMessage (absorbByte b x) := by
  obtain ⟨hh, hl, hn, hp⟩ := h
  obtain ⟨-, ⟨hfa, hla, hna, hha⟩ | ⟨hfa, hla, hna, hha, hpa⟩⟩ := absorbByte_cases a x <;>
    obtain ⟨-, ⟨hfb, hlb, hnb, hhb⟩ | ⟨hfb, hlb, hnb, hhb, hpb⟩⟩ := absorbByte_cases b x
  · exact ⟨by rw [hha, hhb, hh, hp], hla.trans hlb.symm, by rw [hna, hnb, hn],
      (pending_of_empty hla).trans (pending_of_empty hlb).symm⟩
  · rw [hl] at hfa
    omega
  · rw [hl] at hfa
    omega
  · exact ⟨by rw [hha, hhb, hh], BitVec.eq_of_toNat_eq (by rw [hla, hlb, hl]), by rw [hna, hnb, hn],
      by rw [hpa, hpb, hp]⟩

/-- The HWRITE loop over a chunk (R107). -/
theorem absorb_sameMessage {a b : HashState} (h : a.SameMessage b) (data : List Byte) :
    (absorb a data).SameMessage (absorb b data) := by
  induction data generalizing a b with
  | nil => exact h
  | cons x data ih => exact ih (absorbByte_sameMessage h x)

/-- HFINAL fixes every register, `BUF` among them, by the message held (R109, R110). -/
theorem hashFinal_eq_of_sameMessage {a b : HashState} (h : a.SameMessage b) : hashFinal a = hashFinal b := by
  obtain ⟨hh, hl, hn, hp⟩ := h
  obtain ⟨hha, hba, hna, hla, hpa⟩ := hashFinal_spec a
  obtain ⟨hhb, hbb, hnb, hlb, hpb⟩ := hashFinal_spec b
  rw [hh, hl, hn, hp, ← hhb] at hha
  rw [hl, hn, hp, ← hbb] at hba
  exact HashState.ext hha (Vector.toList_inj.mp hba) (hla.trans hlb.symm) (by rw [hna, hnb, hn])
    (hpa.trans hpb.symm)

/-- KDF's registers depend on the password alone (R131). -/
theorem hashPassword_eq (a b : HashState) (password : List Byte) : hashPassword a password = hashPassword b password :=
  hashFinal_eq_of_sameMessage (absorb_sameMessage (hashInit_sameMessage a b) password)

/-- The words of the schedule depend on the key alone (R143). -/
theorem expandKey_words_eq {nk : Nat} (h : legalNk nk) (material : List Byte) (a b : Vector Column Config.rksWords) :
    ∀ j, j < Config.scheduleWords nk →
      scheduleWord (expandKey nk material a) j = scheduleWord (expandKey nk material b) j := by
  obtain ⟨hka, hra, -⟩ := expandKey_spec h material a
  obtain ⟨hkb, hrb, -⟩ := expandKey_spec h material b
  have h0 : 0 < nk := by obtain rfl | rfl | rfl := h <;> decide
  exact recurrence_unique h0 hra hrb fun j hj => (hka j hj).trans (hkb j hj).symm

/-! ## What a command reads (R36, R37) -/

/-- Two states that agree on every register the command's rule reads. -/
def SameReads (i : Instr) (s t : State) : Prop := ∀ r ∈ readSet i.op, r.same s t

/-- HWRITE and HFINAL read every hash register. -/
theorem SameReads.hash_eq {i : Instr} {s t : State} (h : SameReads i s t)
    (hi : readSet i.op = [.h, .buf, .bufLen, .nBlocks, .phase]) : s.hash = t.hash := by
  rw [SameReads, hi] at h
  exact HashState.ext (h .h (by decide)) (h .buf (by decide)) (h .bufLen (by decide)) (h .nBlocks (by decide))
    (h .phase (by decide))

/-- The commands that use the schedule read every register of it. -/
theorem SameReads.keys_eq {i : Instr} {s t : State} (h : SameReads i s t) (hi : readSet i.op = [.rks, .nk, .valid]) :
    s.keys = t.keys := by
  rw [SameReads, hi] at h
  exact KeyState.ext (h .rks (by decide)) (h .nk (by decide)) (h .valid (by decide))

/-- The checks read the registers of the command's read set alone. -/
theorem SameReads.firstFailingCheck_eq {i : Instr} {s t : State} (h : SameReads i s t) :
    firstFailingCheck i s = firstFailingCheck i t := by
  cases i with
  | hwrite data | hfinal => simp only [firstFailingCheck, h.hash_eq rfl]
  | hread =>
    have hp : s.hash.phase = t.hash.phase := h .phase (by decide)
    simp only [firstFailingCheck, hp]
  | ksread | addroundkey arg block | enc buffer | dec buffer => simp only [firstFailingCheck, h.keys_eq rfl]
  | _ => rfl

/-- The output bytes come from the registers of the command's read set alone. -/
theorem SameReads.outputOf_eq {i : Instr} {s t : State} (h : SameReads i s t) : outputOf i s = outputOf i t := by
  cases i with
  | hread =>
    have hh : s.hash.h = t.hash.h := h .h (by decide)
    simp only [outputOf, hh]
  | kdf arg password => simp only [outputOf, hashPassword_eq s.hash t.hash]
  | ksread | addroundkey arg block | enc buffer | dec buffer => simp only [outputOf, h.keys_eq rfl]
  | _ => rfl

/-- A register of the hash engine is the same in states with equal hash registers. -/
theorem Register.same_of_hash_eq {s t : State} (h : s.hash = t.hash) {r : Register}
    (hr : r ∈ [.h, .buf, .bufLen, .nBlocks, .phase]) : r.same s t := by
  cases r with
  | rks | nk | valid => simp at hr
  | _ => simp only [Register.same, h]

/-- A command that succeeds writes values that come from its read set alone, `RKS` left out. -/
theorem SameReads.writes_same {i : Instr} {s t : State} (h : SameReads i s t) {r : Register} (hr : r ∈ writeSet i.op)
    (hrks : r ≠ .rks) : r.same (effectOf i s) (effectOf i t) := by
  cases i with
  | hinit =>
    cases r with
    | h | bufLen | nBlocks | phase => rfl
    | _ => simp [writeSet, Instr.op] at hr
  | hwrite data =>
    have hw : ∀ r ∈ writeSet .hwrite, r ∈ [.h, .buf, .bufLen, .nBlocks, .phase] := by decide
    exact Register.same_of_hash_eq (congrArg (absorb · data) (h.hash_eq rfl)) (hw r hr)
  | hfinal =>
    have hw : ∀ r ∈ writeSet .hfinal, r ∈ [.h, .buf, .bufLen, .nBlocks, .phase] := by decide
    exact Register.same_of_hash_eq (congrArg hashFinal (h.hash_eq rfl)) (hw r hr)
  | kdf arg password => exact Register.same_of_hash_eq (hashPassword_eq s.hash t.hash password) hr
  | kexp material =>
    cases r with
    | rks => exact absurd rfl hrks
    | nk | valid => rfl
    | _ => simp [writeSet, Instr.op] at hr
  | _ => simp [writeSet, Instr.op] at hr

/-- A KEXP that succeeds writes the same schedule, whatever the store held (R141, R143). -/
theorem kexp_words_eq {i : Instr} {s t : State} (hi : i.op = .kexp) (hc : firstFailingCheck i s = none) :
    ∀ j, j < Config.scheduleWords (keysOf i s.keys).nk.toNat →
      scheduleWord (keysOf i s.keys).rks j = scheduleWord (keysOf i t.keys).rks j := by
  cases i with
  | kexp material =>
    obtain ⟨hnk, hofNat⟩ := legalNk_of_validKeyBytes (firstFailingCheck_kexp_eq_none.mp hc)
    simp only [keysOf, hofNat]
    exact expandKey_words_eq hnk material s.keys.rks t.keys.rks
  | _ => cases hi

/-- Settles O16: the same check decides, and where none fails the output and the writes come from the read set. -/
theorem sameReadsGiveSameResponseAndWrites : Obligations.SameReadsGiveSameResponseAndWrites := by
  intro i s t (h : SameReads i s t)
  have hcheck := h.firstFailingCheck_eq
  cases hc : firstFailingCheck i s with
  | some e => exact ⟨.error e, _, _, exec_of_fails hc, exec_of_fails (hcheck ▸ hc), rfl, rfl, nofun⟩
  | none =>
    refine ⟨.ok (outputOf i s), _, _, exec_of_passes hc, exec_of_passes (hcheck ▸ hc), rfl, ?_, fun out _ => ⟨?_, ?_⟩⟩
    · rw [h.outputOf_eq]; rfl
    · exact fun r hr hrks => (h.writes_same hr hrks).respond_right.respond_left
    · exact fun hi => kexp_words_eq hi hc

end Sys2Proof.Machine
end

section

/-!
PROOFS. Bits without a defined value stay unobserved (10_state.md R21, R25, R38): from two states that agree on all that is
defined, the checks, the output and the registers written agree, command by command and then step by step (O14).
-/

namespace Sys2Proof.Machine

/-! ## One step, by what is at the front of the stream -/

theorem step_of_reset {s : State} (hr : s.resetIn = true) : step s = .next (takeReset s) := by simp [step, hr]

theorem step_of_command {s : State} {i : Instr} {rest : List Byte} (hr : s.resetIn = false)
    (hd : decode s.input = .command i rest) : step s = exec i (s.withInput rest) := by simp [step, hr, hd]

theorem step_of_illegal {s : State} {e : DecodeError} {rest : List Byte} (hr : s.resetIn = false)
    (hd : decode s.input = .illegal e rest) :
    step s = .next (respond (.error .illegalCommand) (s.withInput rest)) := by simp [step, hr, hd, raise_def]

theorem step_of_incomplete {s : State} (hr : s.resetIn = false) (hd : decode s.input = .incomplete) :
    step s = .next s := by simp [step, hr, hd]

/-! ## The round-key store, as far as a rule reads it -/

/-- Equal words of a round make equal round keys (R43 (c)). -/
theorem addRoundKey_congr {x y : Vector Column Config.rksWords} {r : Nat}
    (h : ∀ c, c < 4 → scheduleWord x (4 * r + c) = scheduleWord y (4 * r + c)) (b : Block) :
    addRoundKey x b r = addRoundKey y b r := by
  ext k hk
  have hbyte : scheduleByte x (16 * r + k) = scheduleByte y (16 * r + k) := by
    rw [show 16 * r + k = 16 * r + (4 * (k / 4) + k % 4) by omega, scheduleByte_round x r _ _ (by omega),
      scheduleByte_round y r _ _ (by omega)]
    simp only [h (k / 4) (by omega)]
  simp only [addRoundKey_getElem, hbyte]

/-- Key states that agree and are valid use the same round keys, 0 to `NR`. -/
theorem KeyState.Agree.addRoundKey_eq {a b : KeyState} (h : a.Agree b) (hv : a.valid = true) {r : Nat}
    (hr : r ≤ a.rounds) (s : Block) : addRoundKey a.rks s r = addRoundKey b.rks s r := by
  obtain ⟨-, hw⟩ := h.2 hv
  have hr : r ≤ a.nk.toNat + 6 := hr
  refine addRoundKey_congr (fun c hc => hw _ ?_) s
  rw [Config.scheduleWords]
  omega

/-- Key states that agree and are valid have the same number of rounds. -/
theorem KeyState.Agree.rounds_eq {a b : KeyState} (h : a.Agree b) (hv : a.valid = true) : a.rounds = b.rounds := by
  obtain ⟨hnk, -⟩ := h.2 hv
  rw [KeyState.rounds, KeyState.rounds, hnk]

/-- The full rounds of the cipher, over the round keys 1 to `NR − 1`. -/
theorem mem_fullRounds {a : KeyState} {r : Nat} (hr : r ∈ List.range' 1 (a.rounds - 1)) : r ≤ a.rounds := by
  rw [List.mem_range'_1] at hr
  omega

/-- Encryption under key states that agree (R192). -/
theorem KeyState.Agree.encryptBlock_eq {a b : KeyState} (h : a.Agree b) (hv : a.valid = true) :
    encryptBlock a = encryptBlock b := by
  funext block
  have hround : ∀ s, ∀ r ∈ List.range' 1 (a.rounds - 1), encRound a.rks s r = encRound b.rks s r :=
    fun s r hr => h.addRoundKey_eq hv (mem_fullRounds hr) _
  simp only [encryptBlock, ← h.rounds_eq hv]
  rw [List.foldl_ext _ _ _ hround, h.addRoundKey_eq hv (Nat.zero_le _), h.addRoundKey_eq hv (Nat.le_refl _)]

/-- Decryption under key states that agree (R193). -/
theorem KeyState.Agree.decryptBlock_eq {a b : KeyState} (h : a.Agree b) (hv : a.valid = true) :
    decryptBlock a = decryptBlock b := by
  funext block
  have hround : ∀ s, ∀ r ∈ (List.range' 1 (a.rounds - 1)).reverse, decRound a.rks s r = decRound b.rks s r :=
    fun s r hr => congrArg invMixColumns (h.addRoundKey_eq hv (mem_fullRounds (List.mem_reverse.mp hr)) _)
  simp only [decryptBlock, ← h.rounds_eq hv]
  rw [List.foldl_ext _ _ _ hround, h.addRoundKey_eq hv (Nat.zero_le _), h.addRoundKey_eq hv (Nat.le_refl _)]

/-- The schedule written out from key states that agree (R146). -/
theorem KeyState.Agree.scheduleBytes_eq {a b : KeyState} (h : a.Agree b) (hv : a.valid = true) :
    scheduleBytes a = scheduleBytes b := by
  obtain ⟨hnk, hw⟩ := h.2 hv
  have htake : a.rks.toList.take (Config.scheduleWords a.nk.toNat) =
      b.rks.toList.take (Config.scheduleWords a.nk.toNat) := by
    refine List.ext_getElem (by simp) fun j hj _ => ?_
    rw [List.length_take, Vector.length_toList] at hj
    have hword := hw j (by omega)
    rw [scheduleWord_lt _ (by omega), scheduleWord_lt _ (by omega)] at hword
    simpa using hword
  rw [scheduleBytes, scheduleBytes, htake, hnk]

/-! ## Agreement, command by command -/

/-- While a message is open, agreement is holding the same message (R21). -/
theorem HashState.Agree.sameMessage {a b : HashState} (h : a.Agree b) (hp : a.phase = .absorbing) : a.SameMessage b :=
  h.2.1 hp

/-- Two open messages that are the same agree. -/
theorem HashState.SameMessage.agree {a b : HashState} (h : a.SameMessage b) (ha : a.phase = .absorbing)
    (hb : b.phase = .absorbing) : a.Agree b :=
  ⟨ha.trans hb.symm, fun _ => h, fun hf => absurd (ha.symm.trans hf) (by decide)⟩

/-- Equal hash registers agree. -/
theorem HashState.agree_of_eq {a b : HashState} (h : a = b) : a.Agree b := by
  subst h
  exact ⟨rfl, fun _ => ⟨rfl, rfl, rfl, rfl⟩, fun _ => rfl⟩

/-- Two idle hash engines agree (R38). -/
theorem HashState.agree_of_idle {a b : HashState} (ha : a.phase = .idle) (hb : b.phase = .idle) : a.Agree b :=
  ⟨ha.trans hb.symm, fun hp => absurd (ha.symm.trans hp) (by decide), fun hp => absurd (ha.symm.trans hp) (by decide)⟩

/-- Two key states without a schedule agree (R38). -/
theorem KeyState.agree_of_invalid {a b : KeyState} (ha : a.valid = false) (hb : b.valid = false) : a.Agree b :=
  ⟨ha.trans hb.symm, fun hv => absurd (ha.symm.trans hv) (by decide)⟩

/-- The checks of a command read defined bits alone. -/
theorem firstFailingCheck_of_agree {s t : State} (hh : s.hash.Agree t.hash) (hk : s.keys.Agree t.keys) (i : Instr) :
    firstFailingCheck i s = firstFailingCheck i t := by
  have ⟨hp, _⟩ := hh
  obtain ⟨hv, hnk⟩ := hk
  cases i with
  | hwrite data =>
    by_cases ha : s.hash.phase = .absorbing
    · obtain ⟨-, hl, hn, -⟩ := hh.sameMessage ha
      simp only [firstFailingCheck, hp, hl, hn]
    · rw [firstFailingCheck, if_pos ha, firstFailingCheck, if_pos (hp ▸ ha)]
  | hfinal | hread => simp only [firstFailingCheck, hp]
  | addroundkey arg block =>
    cases ha : s.keys.valid with
    | false => rw [firstFailingCheck, if_pos ha, firstFailingCheck, if_pos (hv ▸ ha)]
    | true =>
      obtain ⟨hnk, -⟩ := hnk ha
      simp only [firstFailingCheck, hv, hnk]
  | ksread | enc buffer | dec buffer => simp only [firstFailingCheck, hv]
  | _ => rfl

/-- The output of a command that succeeds comes from defined bits alone. -/
theorem outputOf_of_agree {s t : State} (hh : s.hash.Agree t.hash) (hk : s.keys.Agree t.keys) {i : Instr}
    (hc : firstFailingCheck i s = none) : outputOf i s = outputOf i t := by
  cases i with
  | hread =>
    obtain ⟨-, -, hfinal⟩ := hh
    have heq : s.hash.h = t.hash.h := hfinal (firstFailingCheck_hread_eq_none.mp hc)
    rw [outputOf, outputOf, heq]
  | kdf arg password => rw [outputOf, outputOf, hashPassword_eq s.hash t.hash]
  | ksread => exact hk.scheduleBytes_eq (firstFailingCheck_ksread_eq_none.mp hc)
  | addroundkey arg block =>
    obtain ⟨hv, hr⟩ := firstFailingCheck_addroundkey_eq_none.mp hc
    rw [outputOf, outputOf, hk.addRoundKey_eq hv hr]
  | enc buffer =>
    obtain ⟨-, hv⟩ := firstFailingCheck_enc_eq_none.mp hc
    rw [outputOf, outputOf, hk.encryptBlock_eq hv]
  | dec buffer =>
    obtain ⟨-, hv⟩ := firstFailingCheck_dec_eq_none.mp hc
    rw [outputOf, outputOf, hk.decryptBlock_eq hv]
  | _ => rfl

/-- The hash registers agree after a command that succeeds. -/
theorem hashOf_agree {s t : State} (hh : s.hash.Agree t.hash) {i : Instr} (hc : firstFailingCheck i s = none) :
    (hashOf i s.hash).Agree (hashOf i t.hash) := by
  cases i with
  | hinit => exact (hashInit_sameMessage s.hash t.hash).agree rfl rfl
  | hwrite data =>
    obtain ⟨hp, -⟩ := firstFailingCheck_hwrite_eq_none.mp hc
    exact (absorb_sameMessage (hh.sameMessage hp) data).agree ((absorb_phase _ _).trans hp)
      ((absorb_phase _ _).trans (hh.1.symm.trans hp))
  | hfinal =>
    have hp := firstFailingCheck_hfinal_eq_none.mp hc
    exact HashState.agree_of_eq (hashFinal_eq_of_sameMessage (hh.sameMessage hp))
  | kdf arg password => exact HashState.agree_of_eq (hashPassword_eq s.hash t.hash password)
  | _ => exact hh

/-- The key registers agree after a command that succeeds. -/
theorem keysOf_agree {s t : State} (hk : s.keys.Agree t.keys) {i : Instr} (hc : firstFailingCheck i s = none) :
    (keysOf i s.keys).Agree (keysOf i t.keys) := by
  cases i with
  | kexp material => exact ⟨rfl, fun _ => ⟨rfl, kexp_words_eq rfl hc⟩⟩
  | _ => exact hk

/-- The same response keeps agreement. -/
theorem State.Agree.respond {s t : State} (h : s.Agree t) (a : Response) : (respond a s).Agree (respond a t) := by
  obtain ⟨hin, hout, hr, hh, hk⟩ := h
  exact ⟨hin, congrArg (· ++ [a]) hout, hr, hh, hk⟩

/-- A command run from states that agree leaves states that agree. -/
theorem exec_agree {s t : State} (h : s.Agree t) (i : Instr) :
    ∃ s' t', exec i s = .next s' ∧ exec i t = .next t' ∧ s'.Agree t' := by
  have ⟨hin, hout, hr, hh, hk⟩ := h
  have hcheck := firstFailingCheck_of_agree hh hk i
  cases hc : firstFailingCheck i s with
  | some e => exact ⟨_, _, exec_of_fails hc, exec_of_fails (hcheck ▸ hc), h.respond _⟩
  | none =>
    have heff : (effectOf i s).Agree (effectOf i t) := ⟨hin, hout, hr, hashOf_agree hh hc, keysOf_agree hk hc⟩
    refine ⟨_, _, exec_of_passes hc, exec_of_passes (hcheck ▸ hc), ?_⟩
    rw [← outputOf_of_agree hh hk hc]
    exact heff.respond _

/-- States that agree still do when the same bytes are taken from their streams. -/
theorem State.Agree.withInput {s t : State} (h : s.Agree t) (bytes : List Byte) :
    (s.withInput bytes).Agree (t.withInput bytes) := by
  obtain ⟨-, h⟩ := h
  exact ⟨rfl, h⟩

/-- The reset event leaves nothing defined that two states could disagree on but the responses given (R251). -/
theorem takeReset_agree {s t : State} (hout : s.output = t.output) : (takeReset s).Agree (takeReset t) :=
  ⟨rfl, hout, rfl, HashState.agree_of_idle rfl rfl, KeyState.agree_of_invalid rfl rfl⟩

/-- Settles O14: agreeing states have the same reset input and stream, so they take the same kind of step; a command
keeps agreement by `exec_agree`. -/
theorem undefinedBitsStayUnobserved : Obligations.UndefinedBitsStayUnobserved := by
  intro s t h
  have ⟨hin, hout, hr, _, _⟩ := h
  cases hs : s.resetIn with
  | true => exact ⟨_, _, step_of_reset hs, step_of_reset (hr ▸ hs), takeReset_agree hout⟩
  | false =>
    cases hd : decode s.input with
    | command i rest =>
      rw [step_of_command hs hd, step_of_command (hr ▸ hs) (hin ▸ hd)]
      exact exec_agree (h.withInput rest) i
    | illegal e rest =>
      exact ⟨_, _, step_of_illegal hs hd, step_of_illegal (hr ▸ hs) (hin ▸ hd), (h.withInput rest).respond _⟩
    | incomplete => exact ⟨s, t, step_of_incomplete hs hd, step_of_incomplete (hr ▸ hs) (hin ▸ hd), h⟩

end Sys2Proof.Machine
end

section

/-!
PROOFS. Storage (20_memory.md): repeated commands (R49), what a step takes from the stream (R48) and the constant tables
(R56 to R60), with the statements O18, O6 and O17, each after the facts it needs.
-/

namespace Sys2Proof.Machine

/-! ## Repeated commands (R49) -/

/-- Two stores with the same words are the same. -/
theorem rks_ext {a b : Vector Column Config.rksWords} (h : ∀ i, scheduleWord a i = scheduleWord b i) : a = b :=
  Vector.ext fun i hi => by rw [← scheduleWord_lt a hi, ← scheduleWord_lt b hi, h i]

/-- Expanding the same key again writes the same words over the same store (R142, R143). -/
theorem expandKey_expandKey {nk : Nat} (h : legalNk nk) (material : List Byte) (rks : Vector Column Config.rksWords) :
    expandKey nk material (expandKey nk material rks) = expandKey nk material rks := by
  refine rks_ext fun i => ?_
  by_cases hi : i < Config.scheduleWords nk
  · exact expandKey_words_eq h material _ _ i hi
  · obtain ⟨-, -, habove⟩ := expandKey_spec h material (expandKey nk material rks)
    exact habove i (Nat.le_of_not_lt hi)

/-- A response changes nothing that a check reads. -/
@[simp] theorem firstFailingCheck_respond (i : Instr) (a : Response) (s : State) :
    firstFailingCheck i (respond a s) = firstFailingCheck i s := by cases i <;> rfl

/-- A response changes nothing that an output comes from. -/
@[simp] theorem outputOf_respond (i : Instr) (a : Response) (s : State) :
    outputOf i (respond a s) = outputOf i s := by cases i <;> rfl

section
variable {i : Instr} (hi : i.op ∉ [Op.hwrite, .hfinal])
include hi

/-- No command but HWRITE and HFINAL changes what its own checks read. -/
theorem firstFailingCheck_effectOf (s : State) : firstFailingCheck i (effectOf i s) = firstFailingCheck i s := by
  cases i with
  | hwrite data | hfinal => simp [Instr.op] at hi
  | _ => rfl

/-- No command but HWRITE and HFINAL changes what its own output comes from; KDF's comes from the password alone. -/
theorem outputOf_effectOf (s : State) : outputOf i (effectOf i s) = outputOf i s := by
  cases i with
  | hwrite data | hfinal => simp [Instr.op] at hi
  | kdf arg password => rw [outputOf, outputOf, hashPassword_eq]
  | _ => rfl

/-- HINIT and KDF set the hash registers to values of their own (R104, R131). -/
theorem hashOf_hashOf (hs : HashState) : hashOf i (hashOf i hs) = hashOf i hs := by
  cases i with
  | hwrite data | hfinal => simp [Instr.op] at hi
  | kdf arg password => exact hashPassword_eq _ _ password
  | _ => rfl

end

/-- A second KEXP of the same key finds the registers it would write (R141, R142). -/
theorem keysOf_keysOf {i : Instr} {s : State} (hc : firstFailingCheck i s = none) :
    keysOf i (keysOf i s.keys) = keysOf i s.keys := by
  cases i with
  | kexp material =>
    obtain ⟨hnk, -⟩ := legalNk_of_validKeyBytes (firstFailingCheck_kexp_eq_none.mp hc)
    exact KeyState.ext (expandKey_expandKey hnk material s.keys.rks) rfl rfl
  | _ => rfl

/-- Settles O18: a command that failed fails again, since nothing but the output changed; one that succeeded finds its
checks and its output as before, and its writes are idempotent. -/
theorem repeatedCommandsAreIdempotent : Obligations.RepeatedCommandsAreIdempotent := by
  intro i s t hi h
  obtain ⟨e, hc, rfl⟩ | ⟨hc, rfl⟩ := exec_cases h
  · exact ⟨.error e, _, rfl, exec_of_fails ((firstFailingCheck_respond i _ s).trans hc), rfl, rfl, rfl⟩
  · refine ⟨.ok (outputOf i s), _, rfl, exec_of_passes ?_, ?_, hashOf_hashOf hi s.hash, keysOf_keysOf hc⟩
    · rw [firstFailingCheck_respond, firstFailingCheck_effectOf hi, hc]
    · rw [respond_output, outputOf_respond, outputOf_effectOf hi]
      rfl

end Sys2Proof.Machine

namespace Sys2Proof

/-! ## A step takes a whole command (R48, R70) -/

/-- The decoder reads a well-formed command back from its bytes, whatever bytes follow (R70 to R75). -/
theorem decode_encode_append {i : Instr} (h : i.wellFormed = true) (rest : List Byte) :
    decode (encode i ++ rest) = .command i rest := by
  rw [encode, Instr.header, decode_header _ _ _ _ (payload_length_lt h), decodeCommand, ofCode_code]
  simp only [format_allows, assemble_op]

end Sys2Proof

namespace Sys2Proof.Machine

/-- Settles O6: the bytes of a well-formed command decode to it, and a step runs the command that is decoded. -/
theorem stepRunsTheDecodedCommand : Obligations.StepRunsTheDecodedCommand := by
  refine ⟨fun s i rest hr hi hin => ?_, fun s i rest hr hd => step_of_command hr hd⟩
  exact step_of_command hr (hin ▸ decode_encode_append hi rest)

/-! ## The hash constants (R56, R57) -/

/-- The numbers below `n` that satisfy `p`, in order, are the first values of `Nat.nth p`. -/
theorem filter_range_eq_map_nth (p : Nat → Prop) [DecidablePred p] (n : Nat) :
    (List.range n).filter p = (List.range (Nat.count p n)).map (Nat.nth p) := by
  induction n with
  | zero => simp
  | succ n ih =>
    rw [List.range_succ, List.filter_append, ih, Nat.count_succ]
    by_cases hp : p n
    · simp [hp, List.range_succ, Nat.nth_count hp]
    · simp [hp]

/-- The first 64 primes, 2 to 311 (R57). -/
def firstPrimes : List Nat :=
  [2, 3, 5, 7, 11, 13, 17, 19, 23, 29, 31, 37, 41, 43, 47, 53, 59, 61, 67, 71, 73, 79, 83, 89, 97, 101, 103, 107, 109, 113,
   127, 131, 137, 139, 149, 151, 157, 163, 167, 173, 179, 181, 191, 193, 197, 199, 211, 223, 227, 229, 233, 239, 241, 251,
   257, 263, 269, 271, 277, 281, 283, 293, 307, 311]

/-- They are the primes below 312. -/
theorem filter_prime_range : (List.range 312).filter Nat.Prime = firstPrimes := by decide +kernel

/-- They are the first primes in order. -/
theorem firstPrimes_getD {t : Nat} (ht : t < 64) : firstPrimes.getD t 0 = Nat.nth Nat.Prime t := by
  have h := (filter_range_eq_map_nth Nat.Prime 312).symm.trans filter_prime_range
  have hcount : Nat.count Nat.Prime 312 = 64 := by simpa [firstPrimes] using congrArg List.length h
  rw [← h, hcount]
  simp [ht]

/-- `w` is the first 32 bits of the fractional part of the `k`-th root of `p`: behind the root's whole part `n`, it makes
the largest number whose `k`-th power is at most `p · 2^(32·k)`. -/
def IsRootFraction (k p n : Nat) (w : Word) : Prop :=
  (n * 2 ^ 32 + w.toNat) ^ k ≤ p * 2 ^ (32 * k) ∧ p * 2 ^ (32 * k) < (n * 2 ^ 32 + w.toNat + 1) ^ k

/-- `IV256` against the square roots of the primes to 19, which are below 5 (R56). -/
theorem iv256_isRootFraction : ∀ i : Fin 8, ∃ n < 5, IsRootFraction 2 (firstPrimes.getD i 0) n iv256[i] := by
  unfold IsRootFraction
  decide +kernel

/-- `K256` against the cube roots of the primes to 311, which are below 7 (R57). -/
theorem k256_isRootFraction : ∀ t < 64, ∃ n < 7, IsRootFraction 3 (firstPrimes.getD t 0) n (k256.getD t 0) := by
  unfold IsRootFraction
  decide +kernel

/-! ## The field (R160 to R162) -/

/-- The loop of `multiply` commutes with every map that is linear and commutes with `xtime`. -/
theorem map_multiplyFrom {f : Byte → Byte} (hxtime : ∀ p, f (xtime p) = xtime (f p))
    (hxor : ∀ p q, f (p ^^^ q) = f p ^^^ f q) (y : Byte) (fuel i : Nat) (p r : Byte) :
    f (multiplyFrom y fuel i p r) = multiplyFrom y fuel i (f p) (f r) := by
  induction fuel generalizing i p r with
  | zero => rfl
  | succ n ih => rw [multiplyFrom, multiplyFrom, ih, hxtime, apply_ite f, hxor]

/-- Zero has no multiple but zero. -/
theorem zero_multiply (y : Byte) : multiply 0 y = 0 := by
  have h := multiply_xor_left 0 0 y
  simpa using h

/-- A factor `{02}` moves out of the first operand. -/
theorem multiply_xtime_left (x y : Byte) : multiply (xtime x) y = xtime (multiply x y) := by
  rw [multiply, multiply, map_multiplyFrom (fun _ => rfl) xtime_xor, xtime_zero]

/-- Two factors may change places: multiplying by `z` is linear and commutes with `xtime`. -/
theorem multiply_right_comm (x y z : Byte) : multiply (multiply x y) z = multiply (multiply x z) y := by
  have h := map_multiplyFrom (f := (multiply · z)) (multiply_xtime_left · z) (multiply_xor_left · · z) y 8 0 x 0
  simp only [zero_multiply] at h
  exact h

/-- `{01}` is the unit. -/
theorem one_multiply : ∀ y : Byte, multiply 0x01 y = y := by decide +kernel

/-- A byte has at most one inverse. -/
theorem multiply_eq_one_unique {x b c : Byte} (hb : multiply x b = 0x01) (hc : multiply x c = 0x01) : b = c := by
  have h := multiply_right_comm x b c
  rw [hb, hc, one_multiply, one_multiply] at h
  exact h.symm

/-! ## The AES tables (R58 to R60) -/

/-- The affine map of R58. -/
def sboxAffine (b : Byte) : Byte :=
  b ^^^ b.rotateLeft 1 ^^^ b.rotateLeft 2 ^^^ b.rotateLeft 3 ^^^ b.rotateLeft 4 ^^^ 0x63

/-- The inverse of the affine map. -/
def sboxAffineInv (c : Byte) : Byte := c.rotateLeft 1 ^^^ c.rotateLeft 3 ^^^ c.rotateLeft 6 ^^^ 0x05

/-- Every entry of `SBOX` is the affine map of a byte, the one its inverse map gives. -/
theorem sboxAffine_inv_sbox : ∀ x : Byte, sboxAffine (sboxAffineInv (sbox x)) = sbox x := by decide +kernel

/-- That byte is the field inverse of every byte but zero. -/
theorem multiply_sboxAffineInv_sbox : ∀ x : Byte, x ≠ 0 → multiply x (sboxAffineInv (sbox x)) = 0x01 := by
  decide +kernel

/-- `SBOX` at a byte with an inverse: inverses are unique, so the entry comes from this one (R58). -/
theorem sbox_of_multiply_eq_one {x b : Byte} (h : multiply x b = 0x01) : sbox x = sboxAffine b := by
  have hx : x ≠ 0 := fun h0 => by
    rw [h0, zero_multiply] at h
    exact absurd h (by decide)
  rw [multiply_eq_one_unique h (multiply_sboxAffineInv_sbox x hx), sboxAffine_inv_sbox]

/-- The two tables are inverse permutations (R59). -/
theorem sbox_invSbox_inverse : ∀ x : Byte, invSbox (sbox x) = x ∧ sbox (invSbox x) = x := by decide +kernel

/-- `RCON` holds the powers of `{02}` (R60). -/
theorem rcon_succ : ∀ j < 10, 1 ≤ j → rcon (j + 1) = xtime (rcon j) := by decide

/-- Settles O17: the hash constants against the primes by evaluation, `SBOX` by the uniqueness of inverses in the field. -/
theorem tablesMeetTheirDefinitions : Obligations.TablesMeetTheirDefinitions := by
  refine ⟨fun i => ?_, k256_length, fun t ht => ?_, fun x b h => ?_,
    fun x hx => ⟨_, multiply_sboxAffineInv_sbox x hx⟩, sbox_invSbox_inverse, rfl, fun j h1 hj => rcon_succ j hj h1⟩
  · obtain ⟨n, -, h⟩ := iv256_isRootFraction i
    rw [firstPrimes_getD (by omega)] at h
    exact ⟨n, h⟩
  · obtain ⟨n, -, h⟩ := k256_isRootFraction t ht
    rw [firstPrimes_getD ht] at h
    exact ⟨n, h⟩
  · obtain h | ⟨rfl, rfl⟩ := h
    · exact sbox_of_multiply_eq_one h
    · decide

end Sys2Proof.Machine
end

section

/-!
PROOFS. Encoding (30_encoding.md R70 to R78): a row of the opcode map read field by field, what a whole command decodes
to, the commands with an empty payload and the response header, with the statements O1 to O5, O19 and O52, each after the
facts it needs.
-/

namespace Sys2Proof

/-! ## A row of the opcode map, field by field (R73, R75) -/

/-- The bits of `ARG` that a row of this format compares. -/
def Format.argMask : Format → BitVec 8
  | .n | .s | .b => BitVec.allOnes 8
  | .a | .r => 0

/-- The bits of `LEN` that a row of this format compares. -/
def Format.lenMask : Format → BitVec 16
  | .n | .b | .r => BitVec.allOnes 16
  | .s | .a => 0

/-- The value of `LEN` in `match` for a row of this format. -/
def Format.lenMatch : Format → BitVec 16
  | .b | .r => 16
  | .n | .s | .a => 0

/-- The printed `match` and `mask` of each row are its opcode and what its format fixes. -/
theorem row_eq (op : Op) : op.row =
    (op.code ++ (0 : BitVec 8) ++ op.format.lenMatch, BitVec.allOnes 8 ++ op.format.argMask ++ op.format.lenMask) := by
  cases op <;> decide

/-! Which fields each format allows (R73). -/

theorem violation_n_eq_none {arg : BitVec 8} {len : Nat} :
    Format.n.violation arg len = none ↔ arg = 0 ∧ len = 0 := by simp [Format.violation, ite_eq_iff]

theorem violation_s_eq_none {arg : BitVec 8} {len : Nat} : Format.s.violation arg len = none ↔ arg = 0 := by
  simp [Format.violation]

theorem violation_b_eq_none {arg : BitVec 8} {len : Nat} :
    Format.b.violation arg len = none ↔ arg = 0 ∧ len = 16 := by simp [Format.violation, ite_eq_iff]

theorem violation_r_eq_none {arg : BitVec 8} {len : Nat} : Format.r.violation arg len = none ↔ len = 16 := by
  simp [Format.violation]

/-- The fields a format allows are those its mask and match let through (R73). -/
theorem violation_eq_none_iff (f : Format) (arg : BitVec 8) {len : Nat} (h : len < 2 ^ 16) :
    f.violation arg len = none ↔ arg &&& f.argMask = 0 ∧ BitVec.ofNat 16 len &&& f.lenMask = f.lenMatch := by
  have harg : arg = 0 ↔ arg &&& BitVec.allOnes 8 = 0 := by rw [BitVec.and_allOnes]
  have hlen : ∀ k < 2 ^ 16, len = k ↔ BitVec.ofNat 16 len &&& BitVec.allOnes 16 = BitVec.ofNat 16 k := by
    intro k hk
    rw [BitVec.and_allOnes, ← BitVec.toNat_inj, BitVec.toNat_ofNat, BitVec.toNat_ofNat, Nat.mod_eq_of_lt h,
      Nat.mod_eq_of_lt hk]
  cases f with
  | n => exact violation_n_eq_none.trans (and_congr harg (hlen 0 (by decide)))
  | s => exact violation_s_eq_none.trans (harg.trans (and_iff_left BitVec.and_zero).symm)
  | a => exact iff_of_true rfl ⟨BitVec.and_zero, BitVec.and_zero⟩
  | b => exact violation_b_eq_none.trans (and_congr harg (hlen 16 (by decide)))
  | r => exact violation_r_eq_none.trans ((hlen 16 (by decide)).trans (and_iff_right BitVec.and_zero).symm)

/-- Appended words of the same widths are equal part by part. -/
theorem bitVec_append_inj {m n : Nat} {a b : BitVec m} {c d : BitVec n} : a ++ c = b ++ d ↔ a = b ∧ c = d := by
  refine ⟨fun h => ⟨?_, ?_⟩, fun ⟨ha, hc⟩ => by rw [ha, hc]⟩
  · simpa only [BitVec.extractLsb'_append_eq_left] using congrArg (BitVec.extractLsb' n m) h
  · simpa only [BitVec.extractLsb'_append_eq_right] using congrArg (BitVec.extractLsb' 0 n) h

/-- A header matches a row exactly when it has the row's opcode and the row's format allows its fields (R73, R75). -/
theorem matchesHeader_iff (op : Op) (opc arg : BitVec 8) {len : Nat} (h : len < 2 ^ 16) :
    op.matchesHeader (opc ++ arg ++ BitVec.ofNat 16 len) = true ↔
      opc = op.code ∧ op.format.violation arg len = none := by
  rw [violation_eq_none_iff _ _ h, Op.matchesHeader, row_eq, beq_iff_eq]
  dsimp only
  rw [Laws.RowOfHeader.append_and_append, Laws.RowOfHeader.append_and_append, bitVec_append_inj,
    bitVec_append_inj, BitVec.and_allOnes, and_assoc]

theorem code_injective {op op' : Op} (h : op.code = op'.code) : op = op' :=
  Option.some_injective _ ((ofCode_code op).symm.trans ((congrArg Op.ofCode h).trans (ofCode_code op')))

/-! ## What a whole command decodes to (R70, R74, R77) -/

/-- With the opcode of a row and fields its format allows, a header and its payload are the command of that row. -/
theorem decodeCommand_code {op : Op} {arg : BitVec 8} {payload : List Byte}
    (h : op.format.violation arg payload.length = none) (rest : List Byte) :
    decodeCommand op.code arg payload rest = .command (op.assemble arg payload) rest := by
  simp only [decodeCommand, ofCode_code, h]

/-- The decoder is total on whole commands: the command of a row, or illegal with the payload taken (R77). -/
theorem decodeCommand_cases (opc arg : BitVec 8) (payload rest : List Byte) :
    (∃ op : Op, opc = op.code ∧ op.format.violation arg payload.length = none) ∨
    ∃ e, decodeCommand opc arg payload rest = .illegal e rest := by
  cases hop : Op.ofCode opc with
  | none => exact Or.inr ⟨.unassignedOpcode, by simp only [decodeCommand, hop]⟩
  | some op =>
    cases hv : op.format.violation arg payload.length with
    | none => exact Or.inl ⟨op, code_of_ofCode hop, hv⟩
    | some e => exact Or.inr ⟨e, by simp only [decodeCommand, hop, hv]⟩

@[simp] theorem op_assemble (op : Op) (arg : BitVec 8) (payload : List Byte) : (op.assemble arg payload).op = op := by
  cases op <;> rfl

/-- Fields that the format allows are kept by operand assembly, so they are the fields of the command (R73, R74). -/
theorem fields_assemble {op : Op} {arg : BitVec 8} {payload : List Byte}
    (h : op.format.violation arg payload.length = none) :
    (op.assemble arg payload).argField = arg ∧ (op.assemble arg payload).payload = payload := by
  cases op with
  | hinit | hfinal | hread | ksread =>
    obtain ⟨harg, hlen⟩ := violation_n_eq_none.mp h
    exact ⟨harg.symm, (List.eq_nil_of_length_eq_zero hlen).symm⟩
  | hwrite | kexp | enc | dec => exact ⟨(violation_s_eq_none.mp h).symm, rfl⟩
  | kdf => exact ⟨rfl, rfl⟩
  | subbytes | invsubbytes | shiftrows | invshiftrows | mixcolumns | invmixcolumns =>
    obtain ⟨harg, hlen⟩ := violation_b_eq_none.mp h
    exact ⟨harg.symm, toList_blockOfBytes hlen⟩
  | addroundkey => exact ⟨rfl, toList_blockOfBytes (violation_r_eq_none.mp h)⟩

/-- A command whose payload fits the field `LEN` is well formed (R71). -/
theorem wellFormed_of_payload_length_lt {i : Instr} (h : i.payload.length < 2 ^ 16) : i.wellFormed = true := by
  cases i with
  | hwrite | kdf | kexp | enc | dec => exact decide_eq_true h
  | _ => rfl

/-- A whole command in a stream is a header and `LEN` payload bytes (R70, R71). -/
theorem exists_header_of_decode {bytes : List Byte} (h : decode bytes ≠ .incomplete) :
    ∃ (opc arg : BitVec 8) (payload rest : List Byte), payload.length < 2 ^ 16 ∧
      bytes = be32 (opc ++ arg ++ BitVec.ofNat 16 payload.length) ++ payload ++ rest := by
  unfold decode at h
  split at h
  next opc arg lenHi lenLo tail =>
    have hlt : (lenHi ++ lenLo).toNat < 2 ^ 16 := (lenHi ++ lenLo).isLt
    have hle : (lenHi ++ lenLo).toNat ≤ tail.length := by
      by_contra hc
      exact h (if_pos (Nat.lt_of_not_le hc))
    have hlen : (tail.take (lenHi ++ lenLo).toNat).length = (lenHi ++ lenLo).toNat := List.length_take_of_le hle
    refine ⟨opc, arg, tail.take (lenHi ++ lenLo).toNat, tail.drop (lenHi ++ lenLo).toNat, hlen.trans_lt hlt, ?_⟩
    rw [hlen, BitVec.ofNat_toNat, BitVec.setWidth_eq, List.append_assoc, List.take_append_drop, be32_header]
    rw [BitVec.extractLsb'_append_eq_left, BitVec.extractLsb'_append_eq_right]
    rfl
  · exact absurd rfl h

/-- Settles O2, by the round trip that a step's reading of a command rests on. -/
theorem decodeOfEncodeIsTheCommand : Obligations.DecodeOfEncodeIsTheCommand :=
  fun _ rest h => decode_encode_append h rest

/-- Settles O3: the bytes are a header and its payload, and the command made of these fields has them as its own. -/
theorem encodeOfDecodeIsTheBytes : Obligations.EncodeOfDecodeIsTheBytes := by
  intro bytes rest i h
  obtain ⟨opc, arg, payload, tail, hlen, rfl⟩ := exists_header_of_decode (bytes := bytes) (by rw [h]; exact nofun)
  rw [decode_header _ _ _ _ hlen] at h
  obtain ⟨op, hop, hv, rfl, rfl⟩ := decodeCommand_eq_command h
  obtain ⟨harg, hpayload⟩ := fields_assemble hv
  refine ⟨wellFormed_of_payload_length_lt (hpayload.symm ▸ hlen), ?_⟩
  rw [encode, Instr.header, op_assemble, harg, hpayload, code_of_ofCode hop]

/-- Settles O4: the fields that match a row are those the decoder takes for its command; an opcode has one row. -/
theorem headerIsTheCommandOfItsRow : Obligations.HeaderIsTheCommandOfItsRow := by
  intro opc arg payload rest hlen
  refine ⟨fun op => ?_, fun op op' h h' => ?_⟩
  · rw [matchesHeader_iff op opc arg hlen, decode_header _ _ _ _ hlen]
    constructor
    · rintro ⟨rfl, hv⟩
      exact ⟨_, op_assemble op arg payload, decodeCommand_code hv rest⟩
    · rintro ⟨i, rfl, hd⟩
      obtain ⟨op, hop, hv, rfl, -⟩ := decodeCommand_eq_command hd
      rw [op_assemble]
      exact ⟨code_of_ofCode hop, hv⟩
  · obtain ⟨hop, -⟩ := (matchesHeader_iff op opc arg hlen).mp h
    obtain ⟨hop', -⟩ := (matchesHeader_iff op' opc arg hlen).mp h'
    exact code_injective (hop.symm.trans hop')

/-- Settles O1, by evaluation of the decoder on the words. -/
theorem decodeReadsTheSpecsWords : Obligations.DecodeReadsTheSpecsWords := by
  unfold Obligations.DecodeReadsTheSpecsWords
  decide +kernel

end Sys2Proof

namespace Sys2Proof.Machine

/-- Settles O5: by the decoder's two cases the header is a row's or illegal, and a step takes an illegal one whole. -/
theorem illegalHeaderIsDiscardedWithItsPayload : Obligations.IllegalHeaderIsDiscardedWithItsPayload := by
  intro opc arg payload rest s hlen hr hin hno
  obtain ⟨op, hop, hv⟩ | ⟨e, he⟩ := decodeCommand_cases opc arg payload rest
  · exact absurd ((matchesHeader_iff op opc arg hlen).mpr ⟨hop, hv⟩) (ne_true_of_eq_false (hno op))
  · exact step_of_illegal hr (by rw [hin, decode_header _ _ _ _ hlen, he])

/-! ## Commands with an empty payload (R78) -/

@[simp] theorem firstFailingCheck_kdf_eq_none {arg : BitVec 8} {password : List Byte} {s : State} :
    firstFailingCheck (.kdf arg password) s = none ↔ arg.toNat ∈ [16, 24, 32] := by
  simp only [firstFailingCheck, check_eq_none, not_not, and_true, List.mem_cons, List.not_mem_nil, or_false]
  omega

/-- KDF leaves SHA-256 of the password in `H`, whatever the registers held (R114, R131). -/
theorem hashPassword_h (hs : HashState) {password : List Byte} (h : password.length < 2 ^ 61) :
    (hashPassword hs password).h = sha256Words password := by
  refine hashFinal_of_holds (absorb_holds (hashInit_holds hs) password ?_)
  simp only [hashInit_nBlocks, hashInit_bufLen, BitVec.ofNat_eq_ofNat, BitVec.toNat_zero]
  omega

/-- Settles O19: each command's first failing check, if any, and its output on no bytes. -/
theorem emptyPayloads : Obligations.EmptyPayloads := by
  refine ⟨fun s hp => exec_of_passes (firstFailingCheck_hwrite_eq_none.mpr ⟨hp, ?_⟩),
    fun s hv => ⟨exec_of_passes (firstFailingCheck_enc_eq_none.mpr ⟨rfl, hv⟩),
      exec_of_passes (firstFailingCheck_dec_eq_none.mpr ⟨rfl, hv⟩)⟩,
    fun s => exec_of_fails rfl, fun s arg harg => ⟨hashPassword s.hash [], ?_⟩⟩
  · have hb := bufLen_lt s.hash
    have hn := nBlocks_lt s.hash
    rw [List.length_nil]
    omega
  · rw [exec_of_passes (firstFailingCheck_kdf_eq_none.mpr harg), outputOf, hashPassword_h s.hash (by decide)]
    rfl

/-! ## The response header (R72, R75) -/

/-- A command that succeeds emits as many bytes as the opcode map says (R75). -/
theorem outputOf_length {i : Instr} {s : State} (hinv : s.keys.Inv) (hc : firstFailingCheck i s = none) :
    (outputOf i s).length = outLen i s := by
  cases i with
  | hread => exact digestBytes_length s.hash.h
  | kdf arg password =>
    have harg := firstFailingCheck_kdf_eq_none.mp hc
    simp only [List.mem_cons, List.not_mem_nil, or_false] at harg
    rw [outputOf, List.length_take, digestBytes_length, outLen]
    omega
  | ksread =>
    obtain ⟨hnk, -⟩ := hinv (firstFailingCheck_ksread_eq_none.mp hc)
    exact scheduleBytes_length hnk
  | enc buffer =>
    obtain ⟨hlen, -⟩ := firstFailingCheck_enc_eq_none.mp hc
    exact mapBlocks_length _ hlen
  | dec buffer =>
    obtain ⟨hlen, -⟩ := firstFailingCheck_dec_eq_none.mp hc
    exact mapBlocks_length _ hlen
  | hinit | hwrite | hfinal | kexp => rfl
  | _ => exact Vector.length_toList

/-- `OUTLEN` fits the 16 bits of its field (R72). -/
theorem outLen_lt {i : Instr} (hi : i.wellFormed = true) (s : State) : outLen i s < 2 ^ 16 := by
  have hpayload := payload_length_lt hi
  cases i with
  | kdf arg password => exact arg.isLt.trans (by decide)
  | ksread =>
    have hnk := s.keys.nk.isLt
    rw [outLen]
    omega
  | enc buffer | dec buffer => exact hpayload
  | _ => rw [outLen]; decide

/-- The header bytes of a successful response (R72). -/
theorem ok_bytes_take_four {out : List Byte} (h : out.length < 2 ^ 16) :
    (Response.ok out).bytes.take 4 =
      [0x00, 0x00, BitVec.ofNat 8 (out.length / 256), BitVec.ofNat 8 (out.length % 256)] := by
  have hto : (BitVec.ofNat 16 out.length).toNat = out.length := by rw [BitVec.toNat_ofNat, Nat.mod_eq_of_lt h]
  have hlow : BitVec.ofNat 8 (out.length % 256) = BitVec.ofNat 8 out.length := BitVec.eq_of_toNat_eq (Nat.mod_mod _ _)
  rw [Response.bytes, List.take_left' (be32_length _), Response.header, be32_header, hlow]
  simp only [Response.data, BitVec.extractLsb', hto, Nat.shiftRight_eq_div_pow, Nat.pow_zero, Nat.div_one]
  rfl

/-- Settles O52: a response without an error is that of a command that succeeds, and it emits its `OUTLEN` bytes. -/
theorem responseHeaderCarriesTheOutputLength : Obligations.ResponseHeaderCarriesTheOutputLength := by
  intro i s t out hi hinv h hout
  have hlt := outLen_lt hi s
  obtain ⟨e, -, rfl⟩ | ⟨hc, rfl⟩ := exec_cases h
  · cases respond_output_inj rfl hout
  · cases respond_output_inj (s := effectOf i s) rfl hout
    have hlen := outputOf_length hinv hc
    exact ⟨hlen, hlen ▸ ok_bytes_take_four (hlen ▸ hlt), hlt⟩

end Sys2Proof.Machine
end

section

/-!
PROOFS. HashEngine (40_hash_engine.md), TRANSFORM: the word functions (R100, R102), the message schedule and the rounds
(R112), with the statements O53, O27 and O54, each after the facts it needs.
-/

namespace Sys2Proof.Machine

/-! ## The word functions (R100, R102) -/

/-- The two shifts of `rotr` as arithmetic on the word's value (R100). -/
theorem rotr_toNat (x : Word) (n : Nat) :
    (rotr x n).toNat = (x.toNat / 2 ^ n) ||| (x.toNat * 2 ^ (32 - n) % 2 ^ 32) := by
  rw [rotr, BitVec.toNat_or, BitVec.toNat_ushiftRight, BitVec.toNat_shiftLeft, Nat.shiftRight_eq_div_pow,
    Nat.shiftLeft_eq]

/-- Bit `i` of the rotated word is bit `i + n` of the word, counted modulo 32 (R100). -/
theorem rotr_getLsbD (x : Word) {n i : Nat} (hn : n < 32) (hi : i < 32) :
    (rotr x n).getLsbD i = x.getLsbD ((i + n) % 32) := by
  rw [rotr_eq_rotateRight x hn, BitVec.getLsbD_rotateRight, Nat.mod_eq_of_lt hn]
  by_cases hc : i < 32 - n
  · rw [decide_eq_true hc, cond_true, Nat.mod_eq_of_lt (by omega), Nat.add_comm]
  · rw [decide_eq_false hc, decide_eq_true hi, cond_false, Bool.true_and]
    congr 1
    omega

/-- `Ch` chooses the bit of `y` or of `z` by the bit of `x` (R102). -/
theorem ch_getLsbD (x y z : Word) (i : Nat) :
    (ch x y z).getLsbD i = if x.getLsbD i then y.getLsbD i else z.getLsbD i := by
  rw [ch, BitVec.getLsbD_xor, BitVec.getLsbD_and, BitVec.getLsbD_and, BitVec.getLsbD_not]
  by_cases hi : i < 32
  · rw [decide_eq_true hi]
    cases x.getLsbD i <;> simp
  · have hle : 32 ≤ i := Nat.le_of_not_lt hi
    rw [BitVec.getLsbD_of_ge x i hle, BitVec.getLsbD_of_ge z i hle]
    simp

/-- `Maj` is the majority of the three bits (R102). -/
theorem maj_getLsbD (x y z : Word) (i : Nat) :
    (maj x y z).getLsbD i =
      ((x.getLsbD i && y.getLsbD i) || (x.getLsbD i && z.getLsbD i) || (y.getLsbD i && z.getLsbD i)) := by
  rw [maj, BitVec.getLsbD_xor, BitVec.getLsbD_xor, BitVec.getLsbD_and, BitVec.getLsbD_and, BitVec.getLsbD_and]
  cases x.getLsbD i <;> cases y.getLsbD i <;> cases z.getLsbD i <;> rfl

/-- Settles O53: the rotations by their bits, `Ch` and `Maj` bit by bit. -/
theorem hashWordFunctions : Obligations.HashWordFunctions := by
  intro x y z
  have hlt : ∀ n ∈ [2, 6, 7, 11, 13, 17, 18, 19, 22, 25], n < 32 := by decide
  have hrot : ∀ n ∈ [2, 6, 7, 11, 13, 17, 18, 19, 22, 25], rotr x n = x.rotateRight n :=
    fun n hn => rotr_eq_rotateRight x (hlt n hn)
  refine ⟨fun n hn => ⟨rotr_toNat x n, fun i hi => rotr_getLsbD x (hlt n hn) hi⟩, ch_getLsbD x y z,
    maj_getLsbD x y z, ?_⟩
  simp [bigSigma0, bigSigma1, smallSigma0, smallSigma1, hrot]

/-! ## The message schedule (R112) -/

/-- Word `t` of the block, most significant byte first (R42 (c)). -/
theorem blockWords_getD (block : List Byte) {t : Nat} (ht : t < 16) :
    (blockWords block).getD t 0 =
      block.getD (4 * t) 0 ++ block.getD (4 * t + 1) 0 ++ block.getD (4 * t + 2) 0 ++ block.getD (4 * t + 3) 0 := by
  simp [blockWords, wordBe, ht]

@[simp] theorem blockWords_length (block : List Byte) : (blockWords block).length = 16 := by simp [blockWords]

/-- The recurrence of the message schedule at word `t` (R112). -/
def ScheduledAt (w : List Word) (t : Nat) : Prop :=
  w.getD t 0 = smallSigma1 (w.getD (t - 2) 0) + w.getD (t - 7) 0 + smallSigma0 (w.getD (t - 15) 0) + w.getD (t - 16) 0

/-- Words appended behind do not touch the recurrence at the words before. -/
theorem ScheduledAt.append {w : List Word} {t : Nat} (h : ScheduledAt w t) (ht : t < w.length) (x : List Word) :
    ScheduledAt (w ++ x) t := by
  have hkeep : ∀ k ≤ t, (w ++ x).getD k 0 = w.getD k 0 := fun k hk => List.getD_append _ _ _ _ (hk.trans_lt ht)
  simp only [ScheduledAt, hkeep _ le_rfl, hkeep _ (Nat.sub_le _ _)]
  exact h

/-- One turn of the schedule's loop appends a word that satisfies the recurrence. -/
theorem scheduledAt_scheduleStep {w : List Word} {t : Nat} (h0 : 0 < t) (ht : w.length = t) :
    ScheduledAt (scheduleStep w t) t := by
  have hkeep : ∀ k, 0 < k → (scheduleStep w t).getD (t - k) 0 = w.getD (t - k) 0 :=
    fun k hk => List.getD_append _ _ _ _ (by omega)
  rw [ScheduledAt, hkeep 2 (by decide), hkeep 7 (by decide), hkeep 15 (by decide), hkeep 16 (by decide), scheduleStep,
    List.getD_append_right _ _ _ _ ht.le, ht, Nat.sub_self]
  rfl

/-- The schedule's loop after `n` turns: the first words stay and the words behind them satisfy the recurrence. -/
theorem scheduleLoop_spec {w : List Word} (hw : w.length = 16) (n : Nat) :
    ((List.range' 16 n).foldl scheduleStep w).length = 16 + n ∧
    (∀ t < 16, ((List.range' 16 n).foldl scheduleStep w).getD t 0 = w.getD t 0) ∧
    ∀ t, 16 ≤ t → t < 16 + n → ScheduledAt ((List.range' 16 n).foldl scheduleStep w) t := by
  induction n with
  | zero => exact ⟨hw, fun _ _ => rfl, fun t h1 h2 => by omega⟩
  | succ n ih =>
    obtain ⟨hlen, hfirst, hrec⟩ := ih
    rw [List.range'_concat, List.foldl_concat, Nat.one_mul]
    refine ⟨?_, fun t ht => ?_, fun t h1 h2 => ?_⟩
    · rw [scheduleStep, List.length_append, hlen]
      rfl
    · rw [scheduleStep, List.getD_append _ _ _ _ (by omega), hfirst t ht]
    · obtain ht | rfl : t < 16 + n ∨ t = 16 + n := by omega
      · exact (hrec t h1 ht).append (by omega) _
      · exact scheduledAt_scheduleStep (by omega) hlen

@[simp] theorem messageSchedule_length (block : List Byte) : (messageSchedule block).length = 64 :=
  (scheduleLoop_spec (blockWords_length block) 48).1

/-- `W[0..15]` are the block's words (R112). -/
theorem messageSchedule_getD_of_lt (block : List Byte) {t : Nat} (ht : t < 16) :
    (messageSchedule block).getD t 0 =
      block.getD (4 * t) 0 ++ block.getD (4 * t + 1) 0 ++ block.getD (4 * t + 2) 0 ++ block.getD (4 * t + 3) 0 := by
  obtain ⟨-, hfirst, -⟩ := scheduleLoop_spec (blockWords_length block) 48
  exact (hfirst t ht).trans (blockWords_getD block ht)

/-- `W[16..63]` satisfy the recurrence (R112). -/
theorem messageSchedule_scheduledAt (block : List Byte) {t : Nat} (h : 16 ≤ t) (ht : t < 64) :
    ScheduledAt (messageSchedule block) t := by
  obtain ⟨-, -, hrec⟩ := scheduleLoop_spec (blockWords_length block) 48
  exact hrec t h ht

/-- Settles O27, by the loop of the schedule after its 48 turns. -/
theorem messageScheduleRecurrence : Obligations.MessageScheduleRecurrence :=
  fun block _ => ⟨messageSchedule_length block, fun _ ht => messageSchedule_getD_of_lt block ht,
    fun _ h ht => messageSchedule_scheduledAt block h ht⟩

/-! ## The rounds (R112) -/

/-- The working words of TRANSFORM after `t` rounds (R112). -/
def workingAfter (h : Vector Word 8) (block : List Byte) (t : Nat) : Working :=
  ((k256.zip (messageSchedule block)).take t).foldl hashRound (Working.load h)

/-- Round `t` uses `K256[t]` and `W[t]`. -/
theorem workingAfter_succ (h : Vector Word 8) (block : List Byte) {t : Nat} (ht : t < 64) :
    workingAfter h block (t + 1) =
      hashRound (workingAfter h block t) (k256.getD t 0, (messageSchedule block).getD t 0) := by
  have hk : t < k256.length := by rw [k256_length]; exact ht
  have hw : t < (messageSchedule block).length := by rw [messageSchedule_length]; exact ht
  have hz : t < (k256.zip (messageSchedule block)).length := by rw [List.length_zip]; exact lt_min hk hw
  rw [workingAfter, List.take_succ_eq_append_getElem hz, List.foldl_concat, List.getElem_zip,
    List.getD_eq_getElem _ _ hk, List.getD_eq_getElem _ _ hw]
  rfl

/-- TRANSFORM adds the working words after 64 rounds to the chaining words (R112). -/
theorem compress_eq_addTo (h : Vector Word 8) (block : List Byte) :
    compress h block = (workingAfter h block 64).addTo h := by
  rw [workingAfter, List.take_of_length_le (by simp)]
  rfl

/-- Settles O54: the words of the message schedule, and the working words after each round. -/
theorem transformRunsTheRounds : Obligations.TransformRunsTheRounds := by
  refine ⟨fun h block _ => ⟨fun t => (messageSchedule block).getD t 0, fun t => (workingAfter h block t).toVector,
    fun _ ht => messageSchedule_getD_of_lt block ht, fun _ h16 ht => messageSchedule_scheduledAt block h16 ht,
    load_toVector h, ?_, ?_⟩, fun _ => rfl⟩
  · intro t ht a b c d e f g h' t1 t2 hv h1 h2
    exact (congrArg Working.toVector (workingAfter_succ h block ht)).trans (hashRound_toVector hv h1 h2)
  · intro i
    rw [compress_eq_addTo]
    exact addTo_getElem _ h i

end Sys2Proof.Machine
end

section

/-!
PROOFS. HashEngine (40_hash_engine.md), the commands: HINIT (R104, R105), HWRITE (R106 to R108, R113), HFINAL (R109, R110),
HREAD (R111), SHA-256 by commands (R114) and the phases (R103), with the statements O21, O22, O23, O24, O25, O26, O28 and
O20, each after the facts it needs.
-/

namespace Sys2Proof.Machine

/-! ## Bytes of words and lists (R14) -/

/-- Byte `j` of a word, most significant first (R14). -/
theorem be32_getElem? (w : BitVec 32) (j : Fin 4) : (be32 w)[j.val]? = some (w.extractLsb' (24 - 8 * j.val) 8) := by
  fin_cases j <;> rfl

/-- A part of a part of a value is a part of the value. -/
theorem extractLsb'_extractLsb' {n : Nat} (v : BitVec n) {a b w u : Nat} (h : b + u ≤ w) :
    (v.extractLsb' a w).extractLsb' b u = v.extractLsb' (a + b) u := by
  refine BitVec.eq_of_getLsbD_eq fun i hi => ?_
  simp only [BitVec.getLsbD_extractLsb', show b + i < w by omega, decide_true, Bool.true_and, Nat.add_assoc]

/-- Byte `j` of a 64-bit value, most significant first (R14). -/
theorem be64_getElem? (v : BitVec 64) (j : Fin 8) : (be64 v)[j.val]? = some (v.extractLsb' (56 - 8 * j.val) 8) := by
  fin_cases j <;> exact congrArg some (extractLsb'_extractLsb' v (by decide))

/-- An entry of a list that is put together from parts of one length. -/
theorem flatMap_getElem? {α β : Type} {f : α → List β} {n : Nat} (hf : ∀ a, (f a).length = n) (l : List α) (i : Nat)
    {j : Nat} (hj : j < n) : (l.flatMap f)[n * i + j]? = l[i]?.bind fun a => (f a)[j]? := by
  induction l generalizing i with
  | nil => rfl
  | cons a l ih =>
    rw [List.flatMap_cons]
    cases i with
    | zero =>
      rw [Nat.mul_zero, Nat.zero_add, List.getElem?_append_left ((hf a).symm ▸ hj)]
      rfl
    | succ i =>
      rw [List.getElem?_append_right (by rw [hf, Nat.mul_succ]; omega), List.getElem?_cons_succ, ← ih, hf, Nat.mul_succ]
      congr 1
      omega

/-! ## Runs of hash commands -/

/-- A sequence of commands runs its first one, then the rest (R51). -/
theorem execAll_cons {i : Instr} {s t : State} (h : exec i s = .next t) (is : List Instr) :
    execAll (i :: is) s = execAll is t := by rw [execAll, h]

/-- The state with these hash registers and these responses added: what a run of hash commands leaves. -/
def State.hashed (s : State) (hs : HashState) (responses : List Response) : State :=
  { s with hash := hs, output := s.output ++ responses }

@[simp] theorem hashed_hash (s : State) (hs : HashState) (rs : List Response) : (s.hashed hs rs).hash = hs := rfl

/-- Two runs of hash commands one after the other. -/
@[simp] theorem hashed_hashed (s : State) (hs hs' : HashState) (rs rs' : List Response) :
    (s.hashed hs rs).hashed hs' rs' = s.hashed hs' (rs ++ rs') := by simp [State.hashed]

/-! ## HINIT (R104, R105) -/

/-- HINIT succeeds in every phase (R105). -/
theorem exec_hinit (s : State) : exec .hinit s = .next (s.hashed (hashInit s.hash) [.ok []]) := rfl

/-- Settles O21: no other row has HINIT's opcode, and its format fixes `ARG` and `LEN`. -/
theorem hinitStartsAMessage : Obligations.HinitStartsAMessage := by
  refine ⟨by decide, fun arg payload rest hlen hne => ?_, fun s => rfl, fun s t u hs ht => ?_⟩
  · rw [decode_header _ _ _ _ hlen]
    obtain ⟨op, hop, hv⟩ | he := decodeCommand_cases 0x01 arg payload rest
    · obtain rfl : Op.hinit = op := code_injective hop
      obtain ⟨harg, hnil⟩ := violation_n_eq_none.mp hv
      exact absurd (List.eq_nil_of_length_eq_zero hnil) (hne.resolve_left fun h => h harg)
    · exact he
  · cases hs
    cases ht
    exact ⟨rfl, rfl⟩

/-! ## HWRITE (R106 to R108) -/

/-- HWRITE while ABSORBING and below the limit runs the loop over its chunk (R107). -/
theorem exec_hwrite {s : State} {data : List Byte} (hp : s.hash.phase = .absorbing)
    (hn : s.hash.nBlocks.toNat + (s.hash.bufLen.toNat + data.length) / 64 < 2 ^ 55) :
    exec (.hwrite data) s = .next (s.hashed (absorb s.hash data) [.ok []]) :=
  exec_of_passes (firstFailingCheck_hwrite_eq_none.mpr ⟨hp, hn⟩)

/-- Settles O22, by the loop over the chunk. -/
theorem hwriteAbsorbsTheChunk : Obligations.HwriteAbsorbsTheChunk := by
  intro s data hp hle
  have hn : s.hash.nBlocks.toNat + (s.hash.bufLen.toNat + data.length) / 64 < 2 ^ 55 := by omega
  obtain ⟨hphase, hrest⟩ := absorb_spec data s.hash hn
  exact ⟨absorb s.hash data, exec_hwrite hp hn, hphase.trans hp, hrest⟩

/-- Settles O23: the phase check passes and the length check fails. -/
theorem hwriteLengthOverflow : Obligations.HwriteLengthOverflow := by
  intro s data hp hover
  refine exec_of_fails ?_
  rw [firstFailingCheck, if_neg (not_not_intro hp), if_pos hover]

/-- HWRITE commands one after the other absorb their chunks joined (R113). -/
theorem execAll_hwrite {chunks : List (List Byte)} {s : State} (hp : s.hash.phase = .absorbing)
    (hn : s.hash.nBlocks.toNat + (s.hash.bufLen.toNat + chunks.flatten.length) / 64 < 2 ^ 55) :
    execAll (chunks.map .hwrite) s =
      .next (s.hashed (absorb s.hash chunks.flatten) (List.replicate chunks.length (.ok []))) := by
  induction chunks generalizing s with
  | nil => simp [execAll, absorb, State.hashed]
  | cons c cs ih =>
    rw [List.flatten_cons, List.length_append] at hn
    have hc : s.hash.nBlocks.toNat + (s.hash.bufLen.toNat + c.length) / 64 < 2 ^ 55 := by omega
    obtain ⟨hphase, hbl, hnb, -⟩ := absorb_spec c s.hash hc
    rw [List.map_cons, execAll_cons (exec_hwrite hp hc), ih (hphase.trans hp) (by rw [hashed_hash, hbl, hnb]; omega),
      hashed_hashed, hashed_hash, ← absorb_append]
    rfl

/-- Settles O24: both ways absorb the joined chunk. -/
theorem hwriteIsChunkInvariant : Obligations.HwriteIsChunkInvariant := by
  intro s chunks hp hle
  have hn : s.hash.nBlocks.toNat + (s.hash.bufLen.toNat + chunks.flatten.length) / 64 < 2 ^ 55 := by omega
  exact ⟨_, _, execAll_hwrite hp hn, exec_hwrite hp hn, rfl, rfl, rfl⟩

/-! ## HFINAL (R109, R110) -/

/-- The pending bytes and the padding fill one block or two (R109). -/
theorem padded_length (hs : HashState) (bits : Nat) :
    (hs.pending ++ padding hs.bufLen.toNat bits).length = if hs.bufLen.toNat ≤ 55 then 64 else 128 := by
  have hl := bufLen_lt hs
  rw [List.length_append, pending_length, padding_length]
  split <;> omega

/-- The last eight bytes of the padded bytes are the length field (R109). -/
theorem padded_length_field (pending : List Byte) (n bits : Nat) (j : Fin 8) :
    (pending ++ padding n bits)[(pending ++ padding n bits).length - 8 + j.val]? =
      some ((BitVec.ofNat 64 bits).extractLsb' (56 - 8 * j.val) 8) := by
  have hsplit : pending ++ padding n bits =
      (pending ++ 0x80 :: List.replicate ((119 - n % 64) % 64) 0x00) ++ be64 (BitVec.ofNat 64 bits) := by
    simp [padding]
  rw [hsplit, List.length_append, be64_length, Nat.add_sub_cancel, List.getElem?_append_right (Nat.le_add_right _ _),
    Nat.add_sub_cancel_left, be64_getElem?]

/-- HFINAL while ABSORBING succeeds (R109). -/
theorem exec_hfinal {s : State} (hp : s.hash.phase = .absorbing) :
    exec .hfinal s = .next (s.hashed (hashFinal s.hash) [.ok []]) :=
  exec_of_passes (firstFailingCheck_hfinal_eq_none.mpr hp)

/-- Settles O25, by what HFINAL leaves in the registers. -/
theorem hfinalPadsAndFinishes : Obligations.HfinalPadsAndFinishes := by
  refine ⟨fun s hp => ?_, fun s hp => exec_of_fails (if_pos hp)⟩
  obtain ⟨hh, hbuf, hrest⟩ := hashFinal_spec s.hash
  have hlen := padded_length s.hash (512 * s.hash.nBlocks.toNat + 8 * s.hash.bufLen.toNat)
  refine ⟨hashFinal s.hash, _, rfl, hlen, padded_length_field _ _ _, exec_hfinal hp, hh,
    hbuf.trans (congrArg (List.drop · _) ?_), hrest⟩
  refine Eq.trans ?_ (congrArg (· - 64) hlen).symm
  split <;> rfl

/-! ## HREAD (R111) -/

/-- Byte `j` of chaining word `i` in the digest (R42 (a)). -/
theorem digestBytes_getElem? (h : Vector Word 8) (i : Fin 8) (j : Fin 4) :
    (digestBytes h)[4 * i.val + j.val]? = some (h[i].extractLsb' (24 - 8 * j.val) 8) := by
  rw [digestBytes, flatMap_getElem? be32_length _ _ j.isLt, Vector.getElem?_toList, Vector.getElem?_eq_getElem i.isLt]
  exact be32_getElem? h[i] j

/-- HREAD in phase FINALIZED succeeds (R111). -/
theorem exec_hread {s : State} (hp : s.hash.phase = .finalized) :
    exec .hread s = .next (s.hashed s.hash [.ok (digestBytes s.hash.h)]) :=
  exec_of_passes (firstFailingCheck_hread_eq_none.mpr hp)

/-- Settles O26: the digest is emitted, and its bytes are those of the chaining words. -/
theorem hreadEmitsTheDigest : Obligations.HreadEmitsTheDigest :=
  ⟨fun s hp => ⟨digestBytes s.hash.h, exec_hread hp,
    digestBytes_length s.hash.h, digestBytes_getElem? s.hash.h⟩, fun _ hp => exec_of_fails (if_pos hp)⟩

/-! ## SHA-256 by commands (R114) -/

/-- The commands of a whole message leave the registers as a hash pass over it does, and answer with its SHA-256. -/
theorem execAll_message (s : State) {chunks : List (List Byte)} (hlen : chunks.flatten.length < 2 ^ 61) :
    execAll (.hinit :: chunks.map .hwrite ++ [.hfinal, .hread]) s =
      .next (s.hashed (hashPassword s.hash chunks.flatten)
        (List.replicate (chunks.length + 2) (.ok []) ++ [.ok (sha256 chunks.flatten)])) := by
  have hn : (hashInit s.hash).nBlocks.toNat + ((hashInit s.hash).bufLen.toNat + chunks.flatten.length) / 64 < 2 ^ 55 := by
    change 0 + (0 + chunks.flatten.length) / 64 < 2 ^ 55
    omega
  have hdigest : digestBytes (hashPassword s.hash chunks.flatten).h = sha256 chunks.flatten :=
    congrArg digestBytes (hashPassword_h s.hash hlen)
  obtain ⟨-, -, -, -, hfinalized⟩ := hashFinal_spec (absorb (hashInit s.hash) chunks.flatten)
  have hoks : [.ok []] ++ List.replicate chunks.length (.ok []) ++ [.ok []] =
      List.replicate (chunks.length + 2) (Response.ok []) := by
    rw [List.replicate_succ', List.replicate_succ, List.singleton_append]
  calc execAll (.hinit :: chunks.map .hwrite ++ [.hfinal, .hread]) s
      = execAll (chunks.map .hwrite ++ [.hfinal, .hread]) (s.hashed (hashInit s.hash) [.ok []]) :=
        execAll_cons (exec_hinit s) _
    _ = execAll [.hfinal, .hread] (s.hashed (absorb (hashInit s.hash) chunks.flatten)
          ([.ok []] ++ List.replicate chunks.length (.ok []))) := by
        rw [execAll_append (execAll_hwrite rfl hn), hashed_hashed, hashed_hash]
    _ = execAll [.hread] (s.hashed (hashPassword s.hash chunks.flatten)
          (List.replicate (chunks.length + 2) (.ok []))) := by
        rw [execAll_cons (exec_hfinal (absorb_phase _ _)), hashed_hashed, hoks]
        rfl
    _ = _ := by
        rw [execAll_cons (exec_hread hfinalized), hashed_hashed, hashed_hash, hdigest]
        rfl

/-- Settles O28, by the run of the commands of a message. -/
theorem hashCommandsComputeSha256 : Obligations.HashCommandsComputeSha256 :=
  fun s _ _ hlen => ⟨_, execAll_message s hlen, (List.append_assoc ..).symm⟩

/-! ## The phases (R103) -/

/-- The key-schedule, round and cipher commands have the phase they find in the table (R103). -/
theorem phaseTable_of_not_mem {op : Op} (h : op ∉ [.hinit, .hwrite, .hfinal, .hread, .kdf]) (p : Phase) :
    phaseTable p op = some p := by
  cases op with
  | hinit | hwrite | hfinal | hread | kdf => simp at h
  | _ => cases p <;> rfl

/-- The entries "error" of the table are the failing phase checks (R103). -/
theorem phaseTable_eq_none_iff (i : Instr) (s : State) :
    phaseTable s.hash.phase i.op = none ↔ firstFailingCheck i s = some .protocolError := by
  cases i with
  | hinit | kdf => cases s.hash.phase <;> simp [phaseTable, Instr.op, firstFailingCheck, ite_eq_iff]
  | hwrite | hfinal | hread =>
    cases hp : s.hash.phase <;> simp [phaseTable, Instr.op, firstFailingCheck, hp]
  | _ =>
    rw [phaseTable_of_not_mem (by simp [Instr.op])]
    simp [firstFailingCheck, ite_eq_iff]

/-- The other entries of the table are the phase a command leaves when it succeeds (R103). -/
theorem phaseTable_of_passes {i : Instr} {s : State} (hc : firstFailingCheck i s = none) :
    phaseTable s.hash.phase i.op = some (hashOf i s.hash).phase := by
  cases i with
  | hinit | kdf => cases s.hash.phase <;> rfl
  | hwrite data =>
    obtain ⟨hp, -⟩ := firstFailingCheck_hwrite_eq_none.mp hc
    rw [hashOf, absorb_phase, hp]
    rfl
  | hfinal =>
    rw [firstFailingCheck_hfinal_eq_none.mp hc]
    rfl
  | hread =>
    change phaseTable s.hash.phase .hread = some s.hash.phase
    rw [firstFailingCheck_hread_eq_none.mp hc]
    rfl
  | _ => exact phaseTable_of_not_mem (by simp [Instr.op]) s.hash.phase

/-- The state with this value of `PHASE`. -/
def State.withPhase (s : State) (p : Phase) : State := { s with hash := { s.hash with phase := p } }

/-- The checks of the key-schedule, round and cipher commands do not read `PHASE` (R103). -/
theorem firstFailingCheck_withPhase {i : Instr} (hi : i.op ∉ [.hinit, .hwrite, .hfinal, .hread, .kdf]) (s : State)
    (p : Phase) : firstFailingCheck i (s.withPhase p) = firstFailingCheck i s := by
  cases i with
  | hinit | hwrite | hfinal | hread | kdf => simp [Instr.op] at hi
  | _ => rfl

/-- The key-schedule, round and cipher commands carry any value of `PHASE` through (R103). -/
theorem answer_withPhase {i : Instr} (hi : i.op ∉ [.hinit, .hwrite, .hfinal, .hread, .kdf]) (s : State) (p : Phase) :
    answer i (s.withPhase p) (firstFailingCheck i (s.withPhase p)) =
      (answer i s (firstFailingCheck i s)).withPhase p := by
  rw [firstFailingCheck_withPhase hi]
  cases firstFailingCheck i s with
  | some e => rfl
  | none =>
    cases i with
    | hinit | hwrite | hfinal | hread | kdf => simp [Instr.op] at hi
    | _ => rfl

/-- Settles O20: a command fails on its phase where the table says so, and otherwise moves as it says or fails on another
check and stays. -/
theorem phaseTransitionTable : Obligations.PhaseTransitionTable := by
  refine ⟨fun i s t h => ?_, fun i s p hi => ?_⟩
  · obtain ⟨e, hc, rfl⟩ | ⟨hc, rfl⟩ := exec_cases h
    · refine ⟨fun hn => ?_, fun p out _ hout => ?_, fun p e' hsome hout => ?_⟩
      · rw [phaseTable_eq_none_iff, hc] at hn
        cases hn
        rfl
      · cases respond_output_inj rfl hout
      · cases respond_output_inj rfl hout
        refine ⟨?_, rfl⟩
        rintro rfl
        rw [(phaseTable_eq_none_iff i s).mpr hc] at hsome
        cases hsome
    · rw [phaseTable_of_passes hc]
      refine ⟨nofun, fun p out hsome _ => Option.some_injective _ hsome, fun p e _ hout => ?_⟩
      cases respond_output_inj (s := effectOf i s) rfl hout
  · -- The phase stays: `s` is itself with its own value of `PHASE`.
    exact ⟨_, exec_eq i s, congrArg (·.hash.phase) (answer_withPhase hi s s.hash.phase),
      (exec_eq i (s.withPhase p)).trans (congrArg _ (answer_withPhase hi s p))⟩

end Sys2Proof.Machine
end

section

/-!
PROOFS. KeyDerivation (41_key_derivation.md): KDF as one hash pass over the password (R130, R131), beside the host's own
commands (R133), and the lengths it rejects (R132), with the statements O29, O30 and O31, each after the facts it needs.
-/

namespace Sys2Proof.Machine

/-! ## KDF of a legal length (R130, R131) -/

/-- KDF's hash pass leaves the password's digest in `H`, whatever the registers held (R131). -/
theorem digestBytes_hashPassword (hs : HashState) {password : List Byte} (h : password.length < 2 ^ 61) :
    digestBytes (hashPassword hs password).h = sha256 password := congrArg digestBytes (hashPassword_h hs h)

/-- KDF's hash pass ends as HFINAL does (R110, R131). -/
theorem hashPassword_finalized (hs : HashState) (password : List Byte) :
    (hashPassword hs password).phase = .finalized ∧ (hashPassword hs password).bufLen = 0 := by
  obtain ⟨-, -, -, hbufLen, hphase⟩ := hashFinal_spec (absorb (hashInit hs) password)
  exact ⟨hphase, hbufLen⟩

/-- KDF of a legal length succeeds: it makes its hash pass and answers with the digest cut to `L` bytes (R131). -/
theorem exec_kdf (s : State) {arg : BitVec 8} {password : List Byte} (harg : arg.toNat ∈ [16, 24, 32])
    (h : password.length < 2 ^ 61) :
    exec (.kdf arg password) s =
      .next (s.hashed (hashPassword s.hash password) [.ok ((sha256 password).take arg.toNat)]) := by
  rw [exec_of_passes (firstFailingCheck_kdf_eq_none.mpr harg), outputOf, digestBytes_hashPassword s.hash h]
  rfl

/-- Settles O29, by the hash pass KDF makes and what it leaves in the registers. -/
theorem kdfEmitsTheTruncatedDigest : Obligations.KdfEmitsTheTruncatedDigest := by
  intro s arg password harg hlen
  have h : password.length < 2 ^ 61 := by omega
  exact ⟨hashPassword s.hash password, exec_kdf s harg h, digestBytes_hashPassword s.hash h,
    hashPassword_finalized s.hash password⟩

/-! ## KDF and the host's own commands (R133) -/

/-- Settles O30: the commands of a message in one chunk leave the registers of KDF's hash pass. -/
theorem kdfEqualsTheHostsSequence : Obligations.KdfEqualsTheHostsSequence := by
  intro s arg password harg hlen
  have h : password.length < 2 ^ 61 := by omega
  have hone : [password].flatten = password := List.flatten_singleton
  have hhost := execAll_message s (chunks := [password]) (hone.symm ▸ h)
  rw [hone] at hhost
  exact ⟨_, _, sha256 password, exec_kdf s harg h, hhost, rfl, rfl, rfl, rfl, rfl⟩

/-! ## KDF of another length (R132) -/

/-- Settles O31: above 32 the first check fails, otherwise the second one. -/
theorem kdfRejectsOtherLengths : Obligations.KdfRejectsOtherLengths := fun _ _ _ =>
  ⟨fun hgt => exec_of_fails (if_pos hgt),
    fun hle hne => exec_of_fails ((if_neg (Nat.not_lt.mpr hle)).trans (if_pos hne))⟩

end Sys2Proof.Machine
end

section

/-!
PROOFS. KeySchedule (42_key_schedule.md): the branches of `temp` (R142), KEXP (R141 to R143) and KSREAD (R146), and, by the
inverse transforms (R164) and the cipher driver (R192, R193), the way from a key to a file and back, with the statements O33,
O32, O34, O35 and O48, each after the facts it needs.
-/

namespace Sys2Proof.Machine

/-! ## The branches of `temp` (R142) -/

/-- A word, byte by byte (R25). -/
theorem column_eq (w : Column) : w = #v[w[0], w[1], w[2], w[3]] :=
  Vector.ext fun j hj => by
    obtain rfl | rfl | rfl | rfl : j = 0 ∨ j = 1 ∨ j = 2 ∨ j = 3 := by omega
    all_goals rfl

/-- Two words with the same four bytes are the same (R25). -/
theorem column_ext {x y : Column} (h0 : x[0] = y[0]) (h1 : x[1] = y[1]) (h2 : x[2] = y[2]) (h3 : x[3] = y[3]) :
    x = y := by
  rw [column_eq x, column_eq y, h0, h1, h2, h3]

@[simp] theorem subWord_getElem (w : Column) {j : Nat} (hj : j < 4) : (subWord w)[j] = sbox w[j] := by simp [subWord]

/-- Each byte of a word substituted (R142). -/
theorem subWord_eq (w : Column) : subWord w = #v[sbox w[0], sbox w[1], sbox w[2], sbox w[3]] := by
  rw [column_eq (subWord w)]
  simp only [subWord_getElem]

/-- The first word of a round of the expansion: rotate, substitute, constant into byte 0 (R142). -/
theorem scheduleTemp_of_mod_eq_zero {nk i : Nat} (h : i % nk = 0) (w : Column) :
    scheduleTemp nk i w = #v[sbox w[1] ^^^ rcon (i / nk), sbox w[2], sbox w[3], sbox w[0]] := by
  rw [scheduleTemp, if_pos h, subWord_eq (rotWord w)]
  rfl

/-- Settles O33: the model's branches in the rule's order; a legal `NK` above 6 is 8. -/
theorem scheduleTempBranches : Obligations.ScheduleTempBranches := by
  intro nk i w hnk
  have hgt : nk > 6 ↔ nk = 8 := by obtain rfl | rfl | rfl := hnk <;> decide
  refine ⟨fun h0 => scheduleTemp_of_mod_eq_zero h0 w, fun h0 h8 h4 => ?_, fun h0 hno => ?_⟩
  · rw [scheduleTemp, if_neg h0, if_pos ⟨hgt.mpr h8, h4⟩, subWord_eq]
  · rw [scheduleTemp, if_neg h0, if_neg fun hc => hno ⟨hgt.mp hc.1, hc.2⟩]

/-! ## KEXP (R141 to R143) -/

@[simp] theorem keyWord_getElem (material : List Byte) (i : Nat) {j : Nat} (hj : j < 4) :
    (keyWord material i)[j] = material.getD (4 * i + j) 0 := by simp [keyWord]

/-- A word inside the KeyMaterial is four bytes of it (R74). -/
theorem keyWord_toList {material : List Byte} {i : Nat} (h : 4 * i + 4 ≤ material.length) :
    (keyWord material i).toList = (material.drop (4 * i)).take 4 := by
  refine List.ext_getElem (by simp; omega) fun j hj _ => ?_
  have hj4 : j < 4 := by simpa using hj
  simp [show 4 * i + j < material.length by omega]

section
variable {material : List Byte} (h : material.length ∈ [16, 24, 32])
include h

/-- KEXP of a legal key succeeds (R141). -/
theorem exec_kexp (s : State) : exec (.kexp material) s = .next (respond (.ok []) (effectOf (.kexp material) s)) :=
  exec_of_passes (firstFailingCheck_kexp_eq_none.mpr h)

/-- A legal key is whole words (R141). -/
theorem four_mul_keyWords : 4 * (material.length / 4) = material.length := by
  simp only [List.mem_cons, List.not_mem_nil, or_false] at h
  omega

/-- `NK <- LEN div 4` (R141). -/
theorem keysOf_kexp_nk (k : KeyState) : (keysOf (.kexp material) k).nk.toNat = material.length / 4 :=
  (legalNk_of_validKeyBytes h).2

/-- The store after KEXP of a legal key: the key, the recurrence, and the words above as they were (R141, R142). -/
theorem keysOf_kexp_rks (k : KeyState) :
    (∀ i, i < material.length / 4 → scheduleWord (keysOf (.kexp material) k).rks i = keyWord material i) ∧
    Recurrence (material.length / 4) (keysOf (.kexp material) k).rks ∧
    (∀ i, Config.scheduleWords (material.length / 4) ≤ i →
      scheduleWord (keysOf (.kexp material) k).rks i = scheduleWord k.rks i) :=
  expandKey_spec (legalNk_of_validKeyBytes h).1 material k.rks

end

/-- Settles O32, by what a KEXP that succeeds leaves in the registers; otherwise its one check fails. -/
theorem kexpBuildsTheSchedule : Obligations.KexpBuildsTheSchedule := by
  refine ⟨fun s material h => ?_, fun s material h => exec_of_fails (if_pos h)⟩
  obtain ⟨hkey, hrec, habove⟩ := keysOf_kexp_rks h s.keys
  refine ⟨keysOf (.kexp material) s.keys, exec_kexp h s, rfl, keysOf_kexp_nk h s.keys, fun i j hi => ?_, hrec, habove⟩
  rw [hkey i hi]
  exact keyWord_getElem material i j.isLt

/-- Settles O34: both schedules are the expansion of the key, over two stores. -/
theorem sameKeySameSchedule : Obligations.SameKeySameSchedule := by
  intro s t s' t' material h hs ht
  cases (exec_kexp h s).symm.trans hs
  cases (exec_kexp h t).symm.trans ht
  obtain ⟨hkey, hrec, -⟩ := keysOf_kexp_rks h s.keys
  have hnk := keysOf_kexp_nk h s.keys
  refine ⟨rfl, hnk, rfl, rfl, fun i hi => ?_, hnk.symm ▸ hrec,
    expandKey_words_eq (legalNk_of_validKeyBytes h).1 material s.keys.rks t.keys.rks⟩
  exact (congrArg Vector.toList (hkey i hi)).trans (keyWord_toList (by omega))

/-! ## KSREAD (R146) -/

/-- KSREAD with a schedule succeeds (R146). -/
theorem exec_ksread {s : State} (hv : s.keys.valid = true) :
    exec .ksread s = .next (respond (.ok (scheduleBytes s.keys)) s) :=
  exec_of_passes (firstFailingCheck_ksread_eq_none.mpr hv)

/-- Byte `j` of word `i` in the bytes of the schedule (R146). -/
theorem scheduleBytes_getElem? {k : KeyState} (hnk : legalNk k.nk.toNat) {i j : Nat}
    (hi : i < Config.scheduleWords k.nk.toNat) (hj : j < 4) :
    (scheduleBytes k)[4 * i + j]? = some (scheduleWord k.rks i)[j] := by
  have hin : i < Config.rksWords := Nat.lt_of_lt_of_le hi (scheduleWords_le hnk)
  rw [scheduleBytes, flatMap_getElem? (fun _ => Vector.length_toList) _ _ hj, List.getElem?_take_of_lt hi,
    Vector.getElem?_toList, Vector.getElem?_eq_getElem hin, scheduleWord_lt _ hin, Option.bind_some,
    Vector.getElem?_toList, Vector.getElem?_eq_getElem hj]

/-- After KEXP the schedule's bytes begin with the KeyMaterial (R146). -/
theorem scheduleBytes_take_kexp {material : List Byte} (h : material.length ∈ [16, 24, 32]) (k : KeyState) :
    (scheduleBytes (keysOf (.kexp material) k)).take material.length = material := by
  obtain ⟨hlegal, -⟩ := legalNk_of_validKeyBytes h
  obtain ⟨hkey, -, -⟩ := keysOf_kexp_rks h k
  have hnk := keysOf_kexp_nk h k
  have hwords := four_mul_keyWords h
  refine List.ext_getElem? fun n => ?_
  by_cases hn : n < material.length
  · have hi : n / 4 < material.length / 4 := by omega
    have hsched : n / 4 < Config.scheduleWords (keysOf (.kexp material) k).nk.toNat := by
      rw [hnk, Config.scheduleWords]
      omega
    have hbyte := scheduleBytes_getElem? (hnk.symm ▸ hlegal) hsched (Nat.mod_lt n (by decide))
    rw [hkey _ hi, keyWord_getElem, Nat.div_add_mod] at hbyte
    rw [List.getElem?_take_of_lt hn, hbyte, List.getD_eq_getElem?_getD, List.getElem?_eq_getElem hn, Option.getD_some]
  · rw [List.getElem?_eq_none (by rw [List.length_take]; omega), List.getElem?_eq_none (by omega)]

/-- Settles O35, by the bytes of the schedule; after KEXP they begin with the key. -/
theorem ksreadEmitsTheSchedule : Obligations.KsreadEmitsTheSchedule := by
  refine ⟨fun s hv hnk => ?_, fun s hv => exec_of_fails (if_pos hv), fun s material h => ?_⟩
  · exact ⟨scheduleBytes s.keys, exec_ksread hv, scheduleBytes_length hnk,
      fun i j hi => scheduleBytes_getElem? hnk hi j.isLt⟩
  · obtain ⟨hlegal, -⟩ := legalNk_of_validKeyBytes h
    have hnk := keysOf_kexp_nk h s.keys
    have hrun : execAll [.kexp material, .ksread] s =
        .next (respond (.ok (scheduleBytes (keysOf (.kexp material) s.keys)))
          (respond (.ok []) (effectOf (.kexp material) s))) := by
      rw [execAll_cons (exec_kexp h s), execAll_cons (exec_ksread rfl)]
      rfl
    refine ⟨_, _, hrun, List.append_assoc .., scheduleBytes_take_kexp h s.keys, ?_⟩
    have hwords := four_mul_keyWords h
    rw [scheduleBytes_length (hnk.symm ▸ hlegal), hnk]
    omega

/-! ## The transforms undone (R164) -/

@[simp] theorem invSubBytes_subBytes (b : Block) : invSubBytes (subBytes b) = b :=
  Vector.ext fun k hk => by rw [invSubBytes_getElem, subBytes_getElem, (sbox_invSbox_inverse b[k]).1]

@[simp] theorem invShiftRows_shiftRows (b : Block) : invShiftRows (shiftRows b) = b := by
  refine Vector.ext fun k hk => ?_
  rw [invShiftRows_getElem, shiftRows_getElem]
  congr 1
  omega

/-! `multiply` is the product of a commutative ring over XOR (R162). -/

theorem multiply_comm (x y : Byte) : multiply x y = multiply y x :=
  calc multiply x y = multiply (multiply 0x01 x) y := by rw [one_multiply]
    _ = multiply (multiply 0x01 y) x := multiply_right_comm 0x01 x y
    _ = multiply y x := by rw [one_multiply]

theorem multiply_assoc (x y z : Byte) : multiply (multiply x y) z = multiply x (multiply y z) :=
  calc multiply (multiply x y) z = multiply (multiply y x) z := by rw [multiply_comm x]
    _ = multiply (multiply y z) x := multiply_right_comm y x z
    _ = multiply x (multiply y z) := multiply_comm _ x

/-- `multiply` is linear in its second operand too (R162). -/
theorem multiply_xor_right (x y z : Byte) : multiply x (y ^^^ z) = multiply x y ^^^ multiply x z := by
  rw [multiply_comm x, multiply_xor_left, multiply_comm y, multiply_comm z]

/-! The identity and zero, in the spelling `simp` gives the constants. -/

@[simp] theorem multiply_one (x : Byte) : multiply x 1#8 = x := (multiply_comm x 0x01).trans (one_multiply x)

@[simp] theorem multiply_zero (x : Byte) : multiply x 0#8 = 0#8 := (multiply_comm x 0).trans (zero_multiply x)

/-! Words as vectors over the field: a transform that is linear is fixed by the four unit words. -/

/-- The word with `{01}` in row `j` and zero bytes elsewhere. -/
def unitColumn (j : Fin 4) : Column := Vector.ofFn fun r => if r = j then 0x01 else 0

/-- Each byte of a word multiplied by `c`. -/
def scaleColumn (c : Byte) (a : Column) : Column := Vector.ofFn fun r => multiply c a[r]

@[simp] theorem xorWord_getElem (x y : Column) {j : Nat} (hj : j < 4) : (xorWord x y)[j] = x[j] ^^^ y[j] := by
  simp [xorWord]

@[simp] theorem scaleColumn_getElem (c : Byte) (a : Column) {j : Nat} (hj : j < 4) :
    (scaleColumn c a)[j] = multiply c a[j] := by simp [scaleColumn]

/-- The transform of words is linear over the field (R173). -/
def IsLinear (f : Column → Column) : Prop :=
  (∀ x y, f (xorWord x y) = xorWord (f x) (f y)) ∧ ∀ c x, f (scaleColumn c x) = scaleColumn c (f x)

theorem IsLinear.comp {f g : Column → Column} (hf : IsLinear f) (hg : IsLinear g) : IsLinear (f ∘ g) := by
  obtain ⟨hfx, hfs⟩ := hf
  obtain ⟨hgx, hgs⟩ := hg
  exact ⟨fun x y => by simp only [Function.comp, hgx, hfx], fun c x => by simp only [Function.comp, hgs, hfs]⟩

/-- A word is the sum of the unit words, each times its byte. -/
theorem column_eq_sum (a : Column) :
    a = xorWord (xorWord (scaleColumn a[0] (unitColumn 0)) (scaleColumn a[1] (unitColumn 1)))
      (xorWord (scaleColumn a[2] (unitColumn 2)) (scaleColumn a[3] (unitColumn 3))) := by
  refine column_ext ?_ ?_ ?_ ?_ <;> simp [unitColumn]

/-- A linear transform that keeps the unit words is the identity. -/
theorem IsLinear.eq_self {f : Column → Column} (hf : IsLinear f) (hunit : ∀ j, f (unitColumn j) = unitColumn j)
    (a : Column) : f a = a := by
  obtain ⟨hx, hs⟩ := hf
  conv_lhs => rw [column_eq_sum a]
  simp only [hx, hs, hunit]
  exact (column_eq_sum a).symm

/-- A column times the matrix with first row `m`, each later row the one before it rotated right by one place. -/
def circulant (m a : Column) : Column :=
  #v[multiply a[0] m[0] ^^^ multiply a[1] m[1] ^^^ multiply a[2] m[2] ^^^ multiply a[3] m[3],
     multiply a[0] m[3] ^^^ multiply a[1] m[0] ^^^ multiply a[2] m[1] ^^^ multiply a[3] m[2],
     multiply a[0] m[2] ^^^ multiply a[1] m[3] ^^^ multiply a[2] m[0] ^^^ multiply a[3] m[1],
     multiply a[0] m[1] ^^^ multiply a[1] m[2] ^^^ multiply a[2] m[3] ^^^ multiply a[3] m[0]]

theorem circulant_isLinear (m : Column) : IsLinear (circulant m) := by
  refine ⟨fun x y => ?_, fun c x => ?_⟩ <;> refine column_ext ?_ ?_ ?_ ?_
  all_goals
    simp only [circulant, xorWord_getElem, scaleColumn_getElem, Vector.getElem_mk, List.getElem_toArray,
      List.getElem_cons_zero, List.getElem_cons_succ, multiply_xor_left, multiply_xor_right, multiply_assoc]
  all_goals ac_rfl

/-- The matrix of MixColumns has first row `02 03 01 01` (R171). -/
theorem mixColumn_eq_circulant : mixColumn = circulant #v[0x02, 0x03, 0x01, 0x01] := by
  funext a
  simp [mixColumn, circulant]

/-- The matrix of InvMixColumns has first row `0e 0b 0d 09` (R172). -/
theorem invMixColumn_eq_circulant : invMixColumn = circulant #v[0x0e, 0x0b, 0x0d, 0x09] := rfl

/-- One column of MixColumns is linear (R173). -/
theorem mixColumn_isLinear : IsLinear mixColumn := mixColumn_eq_circulant ▸ circulant_isLinear _

/-- One column of InvMixColumns is linear (R173). -/
theorem invMixColumn_isLinear : IsLinear invMixColumn := invMixColumn_eq_circulant ▸ circulant_isLinear _

/-- The matrix of R172 undoes that of R171: by linearity it is enough to multiply the matrices (R164). -/
theorem invMixColumn_mixColumn (a : Column) : invMixColumn (mixColumn a) = a :=
  (invMixColumn_isLinear.comp mixColumn_isLinear).eq_self (by decide +kernel) a

@[simp] theorem invMixColumns_mixColumns (b : Block) : invMixColumns (mixColumns b) = b :=
  block_ext_columns fun c => by rw [stateColumn_invMixColumns, stateColumn_mixColumns, invMixColumn_mixColumn]

/-! ## Decryption undoes encryption (R193) -/

/-- A full decryption round undoes the full encryption round with the same round key, up to the byte and row steps that the
next one undoes (R192, R193). -/
theorem decRound_encRound (rks : Vector Column Config.rksWords) (s : Block) (r : Nat) :
    decRound rks (shiftRows (subBytes (encRound rks s r))) r = shiftRows (subBytes s) := by
  simp only [decRound, encRound, invShiftRows_shiftRows, invSubBytes_subBytes, addRoundKey_addRoundKey,
    invMixColumns_mixColumns]

/-- The full decryption rounds undo the full encryption rounds, last one first (R193). -/
theorem foldl_decRound_encRound (rks : Vector Column Config.rksWords) (rounds : List Nat) (s : Block) :
    rounds.reverse.foldl (decRound rks) (shiftRows (subBytes (rounds.foldl (encRound rks) s))) =
      shiftRows (subBytes s) := by
  induction rounds generalizing s with
  | nil => rfl
  | cons r rounds ih =>
    rw [List.foldl_cons, List.reverse_cons, List.foldl_append, ih]
    exact decRound_encRound rks s r

/-- DecryptBlock undoes EncryptBlock (R193). -/
@[simp] theorem decryptBlock_encryptBlock (k : KeyState) (b : Block) : decryptBlock k (encryptBlock k b) = b := by
  simp only [decryptBlock, encryptBlock, addRoundKey_addRoundKey, foldl_decRound_encRound, invShiftRows_shiftRows,
    invSubBytes_subBytes]

/-- Decrypting block by block undoes encrypting block by block (R196). -/
theorem mapBlocks_decryptBlock_encryptBlock (k : KeyState) {buffer : List Byte} (h : buffer.length % 16 = 0) :
    mapBlocks (decryptBlock k) (mapBlocks (encryptBlock k) buffer) = buffer := by
  obtain ⟨blocks, rfl⟩ := exists_blocks h
  rw [mapBlocks_flatMap, mapBlocks_flatMap, List.map_map]
  simp [Function.comp_def]

/-! ## From a key to a file and back (R195, R196) -/

/-- ENC of whole blocks with a schedule succeeds (R195). -/
theorem exec_enc {s : State} {buffer : List Byte} (hv : s.keys.valid = true) (h : buffer.length % 16 = 0) :
    exec (.enc buffer) s = .next (respond (.ok (mapBlocks (encryptBlock s.keys) buffer)) s) :=
  exec_of_passes (firstFailingCheck_enc_eq_none.mpr ⟨h, hv⟩)

/-- DEC of whole blocks with a schedule succeeds (R196). -/
theorem exec_dec {s : State} {buffer : List Byte} (hv : s.keys.valid = true) (h : buffer.length % 16 = 0) :
    exec (.dec buffer) s = .next (respond (.ok (mapBlocks (decryptBlock s.keys) buffer)) s) :=
  exec_of_passes (firstFailingCheck_dec_eq_none.mpr ⟨h, hv⟩)

/-- With a schedule, DEC of what ENC of whole blocks emitted gives the buffer back, and neither changes a register (R196). -/
theorem execAll_enc_dec {s : State} {buffer : List Byte} (hv : s.keys.valid = true) (h : buffer.length % 16 = 0) :
    execAll [.enc buffer, .dec (mapBlocks (encryptBlock s.keys) buffer)] s =
      .next (respond (.ok buffer) (respond (.ok (mapBlocks (encryptBlock s.keys) buffer)) s)) := by
  have hout : (mapBlocks (encryptBlock s.keys) buffer).length % 16 = 0 := by rw [mapBlocks_length _ h, h]
  rw [execAll_cons (exec_enc hv h), execAll_cons (exec_dec (s := respond _ s) hv hout),
    respond_keys, mapBlocks_decryptBlock_encryptBlock s.keys h]
  rfl

/-- Settles O48: KEXP leaves a valid schedule, and under it ENC then DEC gives the buffer back. -/
theorem keyThenEncryptThenDecrypt : Obligations.KeyThenEncryptThenDecrypt := by
  intro s material buffer hkey hbuf
  have hrun := execAll_enc_dec (s := respond (.ok []) (effectOf (.kexp material) s)) rfl hbuf
  exact ⟨_, _, (execAll_cons (exec_kexp hkey s) _).trans hrun, mapBlocks_length _ hbuf, by simp, rfl⟩

end Sys2Proof.Machine
end

section

/-!
PROOFS. RoundEngine (43_round_engine.md): the field product (R162), the inverse pairs (R164), which transforms commute (R165),
the column transforms (R171 to R173) and the commands (R163, R166 to R169, R174), with the statements O36, O39, O40, O41, O42,
O43, O37 and O38, each after the facts it needs.
-/

namespace Sys2Proof.Machine

/-! ## The field product (R162) -/

/-- The loop of `multiply` from bit `i` on adds the summands `x · {02}^j` of the bits `j` set in `y`. -/
theorem multiplyFrom_eq_foldl (x y : Byte) (fuel i : Nat) (r : Byte) :
    multiplyFrom y fuel i (xtime^[i] x) r =
      (List.range' i fuel).foldl (fun r j => if y.getLsbD j then r ^^^ xtime^[j] x else r) r := by
  induction fuel generalizing i r with
  | zero => rfl
  | succ n ih => rw [multiplyFrom, ← Function.iterate_succ_apply' xtime, ih, List.range'_succ, List.foldl_cons]

/-- A factor `{02}` moves out of the second operand. -/
theorem multiply_xtime_right (x y : Byte) : multiply x (xtime y) = xtime (multiply x y) := by
  rw [multiply_comm, multiply_xtime_left, multiply_comm]

/-- The constants of the hardware as sums of powers of `{02}`. -/
theorem constants_eq_xtime_sums :
    (0x02 : Byte) = xtime 1#8 ∧ (0x03 : Byte) = xtime 1#8 ^^^ 1#8 ∧
    (0x09 : Byte) = xtime (xtime (xtime 1#8)) ^^^ 1#8 ∧
    (0x0b : Byte) = xtime (xtime (xtime 1#8)) ^^^ xtime 1#8 ^^^ 1#8 ∧
    (0x0d : Byte) = xtime (xtime (xtime 1#8)) ^^^ xtime (xtime 1#8) ^^^ 1#8 ∧
    (0x0e : Byte) = xtime (xtime (xtime 1#8)) ^^^ xtime (xtime 1#8) ^^^ xtime 1#8 := by decide

/-- The products by the constants follow by linearity (R162). -/
theorem multiply_constants (x : Byte) :
    multiply x 0x02 = xtime x ∧ multiply x 0x03 = xtime x ^^^ x ∧
    multiply x 0x09 = xtime (xtime (xtime x)) ^^^ x ∧
    multiply x 0x0b = xtime (xtime (xtime x)) ^^^ xtime x ^^^ x ∧
    multiply x 0x0d = xtime (xtime (xtime x)) ^^^ xtime (xtime x) ^^^ x ∧
    multiply x 0x0e = xtime (xtime (xtime x)) ^^^ xtime (xtime x) ^^^ xtime x := by
  obtain ⟨h2, h3, h9, hb, hd, he⟩ := constants_eq_xtime_sums
  rw [h2, h3, h9, hb, hd, he]
  simp only [multiply_xor_right, multiply_xtime_right, multiply_one, and_self]

/-- Settles O36, by the laws of the field product; the sum over the bits is the loop's. -/
theorem fieldMultiplicationLaws : Obligations.FieldMultiplicationLaws := fun x y z =>
  ⟨(multiplyFrom_eq_foldl x y 8 0 0x00).trans (by rw [List.range_eq_range']), multiply_comm x y, multiply_assoc x y z,
    multiply_xor_right x y z, multiply_one x, multiply_zero x, multiply_constants x⟩

/-! ## The column transforms (R171 to R173) -/

/-- Settles O39, by the matrices of one column; the statement writes their entries as the left factors. -/
theorem mixColumnsCommands : Obligations.MixColumnsCommands := by
  refine ⟨fun s b => ⟨mixColumns b, rfl, fun c a0 a1 a2 a3 h => ?_⟩,
    fun s b => ⟨invMixColumns b, rfl, fun c a0 a1 a2 a3 h => ?_⟩⟩
  · rw [stateColumn_mixColumns, h]
    simp only [multiply_comm 0x02, multiply_comm 0x03]
    rfl
  · rw [stateColumn_invMixColumns, h]
    simp only [multiply_comm 0x0e, multiply_comm 0x0b, multiply_comm 0x0d, multiply_comm 0x09]
    rfl

/-- A column of the XOR of two blocks is the XOR of their columns (R32). -/
theorem stateColumn_xor (a b : Block) (c : Fin 4) :
    stateColumn (Vector.zipWith (· ^^^ ·) a b) c = xorWord (stateColumn a c) (stateColumn b c) := by
  ext j hj
  simp [stateColumn, xorWord]

/-- A linear transform applied to each column is linear on blocks. -/
theorem IsLinear.ofColumns_xor {f : Column → Column} (hf : IsLinear f) (a b : Block) :
    ofColumns (fun c => f (stateColumn (Vector.zipWith (· ^^^ ·) a b) c)) =
      Vector.zipWith (· ^^^ ·) (ofColumns fun c => f (stateColumn a c)) (ofColumns fun c => f (stateColumn b c)) := by
  obtain ⟨hxor, -⟩ := hf
  refine block_ext_columns fun c => ?_
  simp only [stateColumn_xor, stateColumn_ofColumns, hxor]

/-- Settles O42: each transform is a linear one of columns, applied to each column. -/
theorem mixColumnsIsColumnwiseAndLinear : Obligations.MixColumnsIsColumnwiseAndLinear := by
  refine ⟨fun a b c h => ?_, fun a b x y hx hy => ?_⟩
  · simp only [stateColumn_mixColumns, stateColumn_invMixColumns, h, and_self]
  · exact ⟨(mixColumn_isLinear.ofColumns_xor a b).trans hx.symm,
      (invMixColumn_isLinear.ofColumns_xor a b).trans hy.symm⟩

/-! ## The inverse pairs, in the other order (R164) -/

@[simp] theorem subBytes_invSubBytes (b : Block) : subBytes (invSubBytes b) = b :=
  Vector.ext fun k hk => by rw [subBytes_getElem, invSubBytes_getElem, (sbox_invSbox_inverse b[k]).2]

@[simp] theorem shiftRows_invShiftRows (b : Block) : shiftRows (invShiftRows b) = b := by
  refine Vector.ext fun k hk => ?_
  rw [shiftRows_getElem, invShiftRows_getElem]
  congr 1
  omega

/-- The matrix of R171 undoes that of R172: by linearity it is enough to multiply the matrices (R164). -/
theorem mixColumn_invMixColumn (a : Column) : mixColumn (invMixColumn a) = a :=
  (mixColumn_isLinear.comp invMixColumn_isLinear).eq_self (by decide +kernel) a

@[simp] theorem mixColumns_invMixColumns (b : Block) : mixColumns (invMixColumns b) = b :=
  block_ext_columns fun c => by rw [stateColumn_mixColumns, stateColumn_invMixColumns, mixColumn_invMixColumn]

/-- Settles O40, pair by pair. -/
theorem transformsAreInverses : Obligations.TransformsAreInverses := fun b =>
  ⟨invSubBytes_subBytes b, subBytes_invSubBytes b, invShiftRows_shiftRows b, shiftRows_invShiftRows b,
    invMixColumns_mixColumns b, mixColumns_invMixColumns b⟩

/-! ## Which transforms commute (R165) -/

theorem shiftRows_subBytes (b : Block) : shiftRows (subBytes b) = subBytes (shiftRows b) :=
  Vector.ext fun k hk => by simp only [shiftRows_getElem, subBytes_getElem]

theorem invShiftRows_invSubBytes (b : Block) : invShiftRows (invSubBytes b) = invSubBytes (invShiftRows b) :=
  Vector.ext fun k hk => by simp only [invShiftRows_getElem, invSubBytes_getElem]

/-- The 16 bytes `01 00 … 00`, as a key. -/
def unitKey : List Byte := 0x01 :: List.replicate 15 0x00

/-- Settles O41: the bytewise substitution does not see the permutation. MixColumns and SubBytes differ in order on the block
`01 00 … 00`; adding the key `01 00 … 00` to the zero block before MixColumns mixes the key, adding it after does not. -/
theorem whichTransformsCommute : Obligations.WhichTransformsCommute :=
  ⟨shiftRows_subBytes, invShiftRows_invSubBytes,
    ⟨blockOfBytes unitKey, by decide +kernel⟩,
    ⟨Vector.replicate 16 0x00, keysOf (.kexp unitKey) State.reset.keys, 0, by decide, by decide +kernel⟩⟩

/-! ## ADDROUNDKEY (R174) -/

/-- The round key added to the all-zero block is the round key (R174). -/
theorem addRoundKey_replicate_zero (rks : Vector Column Config.rksWords) (r : Nat) :
    addRoundKey rks (Vector.replicate 16 0) r = roundKey rks r := by
  ext k hk
  simp [roundKey]

/-- ADDROUNDKEY with a schedule and a round it has succeeds (R174). -/
theorem exec_addroundkey {s : State} {arg : BitVec 8} (hv : s.keys.valid = true) (hr : arg.toNat ≤ s.keys.rounds)
    (b : Block) : exec (.addroundkey arg b) s = .next (respond (.ok (addRoundKey s.keys.rks b arg.toNat).toList) s) :=
  exec_of_passes (firstFailingCheck_addroundkey_eq_none.mpr ⟨hv, hr⟩)

/-- Settles O43, by its checks in order; the second application is undone by `addRoundKey_addRoundKey`. -/
theorem addRoundKeyCommand : Obligations.AddRoundKeyCommand := by
  refine fun s arg b => ⟨fun hv => ?_, fun hv hr => ?_, fun hv hr => ?_⟩
  · exact exec_of_fails (if_pos hv)
  · exact exec_of_fails ((if_neg (by simp [hv])).trans (if_pos hr))
  · refine ⟨addRoundKey s.keys.rks b arg.toNat, exec_addroundkey hv hr b, fun c j => ?_, ?_, ?_⟩
    · rw [addRoundKey_getElem, scheduleByte_round _ _ _ _ j.isLt]
      rfl
    · rw [exec_addroundkey hv hr, addRoundKey_addRoundKey]
      rfl
    · rintro rfl
      exact addRoundKey_replicate_zero s.keys.rks arg.toNat

/-! ## SUBBYTES and SHIFTROWS with their inverses (R166 to R169) -/

/-- Settles O37, by the bytes of the two transforms. -/
theorem subBytesCommands : Obligations.SubBytesCommands :=
  ⟨fun _ b => ⟨subBytes b, rfl, fun k => subBytes_getElem b k k.isLt⟩,
    fun _ b => ⟨invSubBytes b, rfl, fun k => invSubBytes_getElem b k k.isLt⟩⟩

/-- ShiftRows as the permutation `p` of stream indices (R168). -/
theorem shiftRows_eq (b : Block) : shiftRows b =
    #v[b[0], b[5], b[10], b[15], b[4], b[9], b[14], b[3], b[8], b[13], b[2], b[7], b[12], b[1], b[6], b[11]] :=
  Vector.ext fun k hk => by
    rw [shiftRows_getElem]
    interval_cases k <;> rfl

/-- InvShiftRows as the permutation `q` of stream indices (R169). -/
theorem invShiftRows_eq (b : Block) : invShiftRows b =
    #v[b[0], b[13], b[10], b[7], b[4], b[1], b[14], b[11], b[8], b[5], b[2], b[15], b[12], b[9], b[6], b[3]] :=
  Vector.ext fun k hk => by
    rw [invShiftRows_getElem]
    interval_cases k <;> rfl

/-- Settles O38, by the two permutations of stream indices. -/
theorem shiftRowsCommands : Obligations.ShiftRowsCommands :=
  ⟨fun _ b => ⟨shiftRows b, rfl, shiftRows_eq b⟩, fun _ b => ⟨invShiftRows b, rfl, invShiftRows_eq b⟩⟩

end Sys2Proof.Machine
end

section

/-!
PROOFS. CipherDriver (44_cipher_driver.md): ENC and DEC over a buffer (R194 to R197), the driver's states (R191 to R193), and
encryption undoing decryption (R193), with the statements O44, O47, O45 and O46, each after the facts it needs.
-/

namespace Sys2Proof.Machine

/-! ## ENC and DEC over a buffer (R194 to R196) -/

/-- A first block transformed, then the blocks of the rest (R195). -/
theorem mapBlocks_block_append (f : Block → Block) (b : Block) (rest : List Byte) :
    mapBlocks f (b.toList ++ rest) = (f b).toList ++ mapBlocks f rest := by
  rw [mapBlocks, bufferBlocks_block_append, List.flatMap_cons, mapBlocks]

/-- Output bytes `16i .. 16i+15` are the transformed block `i` (R195, R196). -/
theorem mapBlocks_drop_take (f : Block → Block) {buffer : List Byte} {i : Nat} {b : Block} (h : buffer.length % 16 = 0)
    (hb : b.toList = (buffer.drop (16 * i)).take 16) :
    ((mapBlocks f buffer).drop (16 * i)).take 16 = (f b).toList := by
  have hlen : 16 * i + 16 ≤ buffer.length := by
    have := congrArg List.length hb
    rw [Vector.length_toList, List.length_take, List.length_drop] at this
    omega
  have hsplit : buffer = buffer.take (16 * i) ++ (b.toList ++ buffer.drop (16 * i + 16)) := by
    rw [hb, ← List.drop_drop, List.take_append_drop, List.take_append_drop]
  have hfst : (buffer.take (16 * i)).length = 16 * i := List.length_take_of_le (by omega)
  have hfst16 : (buffer.take (16 * i)).length % 16 = 0 := by omega
  rw [hsplit, mapBlocks_append f hfst16 (by simp; omega), mapBlocks_block_append,
    List.drop_left' ((mapBlocks_length f hfst16).trans hfst), List.take_left' Vector.length_toList]

/-- Settles O44, by what ENC and DEC emit when their two checks pass, and by the first of them that fails. -/
theorem cipherCommandsTransformEveryBlock : Obligations.CipherCommandsTransformEveryBlock := by
  refine ⟨fun s buffer hv h => ?_, fun s buffer hv h => ?_, fun s buffer h => ?_, fun s buffer h hv => ?_⟩
  · exact ⟨_, exec_enc hv h, mapBlocks_length _ h, fun _ _ _ hb => mapBlocks_drop_take _ h hb⟩
  · exact ⟨_, exec_dec hv h, mapBlocks_length _ h, fun _ _ _ hb => mapBlocks_drop_take _ h hb⟩
  · exact ⟨exec_of_fails (if_pos h), exec_of_fails (if_pos h)⟩
  · exact ⟨exec_of_fails ((if_neg (not_not_intro h)).trans (if_pos hv)),
      exec_of_fails ((if_neg (not_not_intro h)).trans (if_pos hv))⟩

/-! ## Blocks are independent (R197) -/

/-- Pieces of whole blocks joined are whole blocks. -/
theorem flatten_length_mod {pieces : List (List Byte)} (h : ∀ p ∈ pieces, p.length % 16 = 0) :
    pieces.flatten.length % 16 = 0 := by
  rw [List.length_flatten]
  refine Nat.mod_eq_zero_of_dvd (List.dvd_sum fun n hn => ?_)
  obtain ⟨p, hp, rfl⟩ := List.mem_map.mp hn
  exact Nat.dvd_of_mod_eq_zero (h p hp)

/-- Pieces of whole blocks joined and transformed are the transformed pieces joined (R197). -/
theorem mapBlocks_flatten (f : Block → Block) {pieces : List (List Byte)} (h : ∀ p ∈ pieces, p.length % 16 = 0) :
    mapBlocks f pieces.flatten = (pieces.map (mapBlocks f)).flatten := by
  induction pieces with
  | nil => rfl
  | cons p ps ih =>
    obtain ⟨hp, hps⟩ := List.forall_mem_cons.mp h
    rw [List.flatten_cons, mapBlocks_append f hp (flatten_length_mod hps), ih hps, List.map_cons, List.flatten_cons]

/-- Commands that under the keys of `s` succeed and change no register, one for each piece: their responses in order. -/
theorem execAll_map_of_ok {c : List Byte → Instr} {f : List Byte → List Byte} {pieces : List (List Byte)} {s : State}
    (hc : ∀ p ∈ pieces, ∀ t : State, t.keys = s.keys → exec (c p) t = .next (respond (.ok (f p)) t)) :
    execAll (pieces.map c) s = .next { s with output := s.output ++ (pieces.map f).map .ok } := by
  induction pieces generalizing s with
  | nil => simp [execAll]
  | cons p ps ih =>
    obtain ⟨hp, hps⟩ := List.forall_mem_cons.mp hc
    rw [List.map_cons, execAll_cons (hp s rfl), ih (s := respond _ s) hps, respond_eq]
    simp

/-- Settles O47: ENC and DEC change no register, so each piece is transformed under the keys of the first. -/
theorem blocksAreIndependent : Obligations.BlocksAreIndependent := by
  refine fun s pieces hv h => ⟨⟨pieces.map (mapBlocks (encryptBlock s.keys)), ?_, ?_⟩,
    ⟨pieces.map (mapBlocks (decryptBlock s.keys)), ?_, ?_⟩⟩
  · rw [exec_enc hv (flatten_length_mod h), mapBlocks_flatten _ h, respond_eq]
  · exact execAll_map_of_ok fun p hp t ht => ht ▸ exec_enc (ht ▸ hv) (h p hp)
  · rw [exec_dec hv (flatten_length_mod h), mapBlocks_flatten _ h, respond_eq]
  · exact execAll_map_of_ok fun p hp t ht => ht ▸ exec_dec (ht ▸ hv) (h p hp)

/-! ## The driver as one machine (R191)

Both directions of the driver step through the same states; they differ in what a state does to the block. -/

/-- The driver state after one transition, with `nr` rounds (R191). -/
def nextDriver (nr : Nat) : Driver → Driver
  | .initial => .round 1
  | .round r => if r = nr - 1 then .finalRound else .round (r + 1)
  | .finalRound => .done
  | .done => .done

/-- What the encrypting driver does to the block in a state (R192). -/
def encWork (k : KeyState) : Driver → Block → Block
  | .initial, s => addRoundKey k.rks s 0
  | .round r, s => encRound k.rks s r
  | .finalRound, s => addRoundKey k.rks (shiftRows (subBytes s)) k.rounds
  | .done, s => s

/-- What the decrypting driver does to the block in a state (R193). -/
def decWork (k : KeyState) : Driver → Block → Block
  | .initial, s => addRoundKey k.rks s k.rounds
  | .round r, s => decRound k.rks s (k.rounds - r)
  | .finalRound, s => addRoundKey k.rks (invSubBytes (invShiftRows s)) 0
  | .done, s => s

/-- One transition of a driver with `nr` rounds that does `work` in each state. -/
def driverStep (nr : Nat) (work : Driver → Block → Block) (p : Driver × Block) : Driver × Block :=
  (nextDriver nr p.1, work p.1 p.2)

theorem encDriver_eq (k : KeyState) : encDriver k = driverStep k.rounds (encWork k) := by
  funext ⟨d, s⟩
  cases d <;> rfl

theorem decDriver_eq (k : KeyState) : decDriver k = driverStep k.rounds (decWork k) := by
  funext ⟨d, s⟩
  cases d <;> rfl

section
variable {nr : Nat} (work : Driver → Block → Block)

/-- No data value steers the driver: its states are those of `nextDriver` (R191). -/
theorem iterate_driverStep_fst (n : Nat) (p : Driver × Block) :
    ((driverStep nr work)^[n] p).1 = (nextDriver nr)^[n] p.1 :=
  (show Function.Semiconj Prod.fst (driverStep nr work) (nextDriver nr) from fun _ => rfl).iterate_right n p

/-- After `n + 1` transitions the driver is in round `n + 1`, the last of them `FinalRound`, and rounds 1 to `n` are done. -/
theorem iterate_driverStep_rounds (b : Block) {n : Nat} (hn : n + 1 ≤ nr) (hnr : 2 ≤ nr) :
    (driverStep nr work)^[n + 1] (.initial, b) =
      (if n + 1 = nr then .finalRound else .round (n + 1),
        (List.range' 1 n).foldl (fun s r => work (.round r) s) (work .initial b)) := by
  induction n with
  | zero => rw [if_neg (by omega)]; rfl
  | succ n ih =>
    have hlast : n + 1 = nr - 1 ↔ n + 1 + 1 = nr := by omega
    rw [Function.iterate_succ_apply', ih (by omega), if_neg (by omega), List.range'_1_concat, List.foldl_append]
    simp only [driverStep, nextDriver, hlast, Nat.add_comm 1 n, List.foldl_cons, List.foldl_nil]

variable (hnr : 2 ≤ nr) (b : Block)
include hnr

/-- Before the last of its `nr` rounds the driver is in a full round (R191). -/
theorem iterate_driverStep_round {n : Nat} (h1 : 1 ≤ n) (hn : n < nr) :
    ((driverStep nr work)^[n] (.initial, b)).1 = .round n := by
  obtain ⟨n, rfl⟩ := Nat.exists_eq_add_of_le' h1
  rw [iterate_driverStep_rounds work b hn.le hnr, if_neg hn.ne]

/-- After `nr` transitions the driver is in `FinalRound`, and rounds 1 to `nr − 1` are done (R191). -/
theorem iterate_driverStep_finalRound :
    (driverStep nr work)^[nr] (.initial, b) =
      (.finalRound, (List.range' 1 (nr - 1)).foldl (fun s r => work (.round r) s) (work .initial b)) := by
  obtain ⟨n, rfl⟩ := Nat.exists_eq_add_of_le' (Nat.le_of_succ_le hnr)
  rw [iterate_driverStep_rounds work b le_rfl hnr, if_pos rfl, Nat.add_sub_cancel]

/-- After `nr + 1` transitions the driver is in `Done` (R191). -/
theorem iterate_driverStep_done :
    (driverStep nr work)^[nr + 1] (.initial, b) =
      (.done, work .finalRound ((List.range' 1 (nr - 1)).foldl (fun s r => work (.round r) s) (work .initial b))) := by
  rw [Function.iterate_succ_apply', iterate_driverStep_finalRound work hnr b]
  rfl

end

/-- The cipher has at least two rounds, whatever `NK` holds (R9). -/
theorem two_le_rounds (k : KeyState) : 2 ≤ k.rounds := by
  rw [KeyState.rounds, Config.rounds]
  omega

/-- The full rounds counted down are the full rounds counted up and taken from `nr` (R193). -/
theorem reverse_fullRounds (nr : Nat) :
    (List.range' 1 (nr - 1)).reverse = (List.range' 1 (nr - 1)).map fun r => nr - r := by
  rw [List.reverse_range', List.range'_eq_map_range, List.map_map]
  refine List.map_congr_left fun r hr => ?_
  rw [List.mem_range] at hr
  simp only [Function.comp]
  omega

/-- `EncryptBlock` is the driver's work, state by state (R192). -/
theorem encryptBlock_eq_work (k : KeyState) (b : Block) :
    encryptBlock k b = encWork k .finalRound
      ((List.range' 1 (k.rounds - 1)).foldl (fun s r => encWork k (.round r) s) (encWork k .initial b)) := rfl

/-- `DecryptBlock` is the driver's work, state by state (R193). -/
theorem decryptBlock_eq_work (k : KeyState) (b : Block) :
    decryptBlock k b = decWork k .finalRound
      ((List.range' 1 (k.rounds - 1)).foldl (fun s r => decWork k (.round r) s) (decWork k .initial b)) := by
  rw [decryptBlock, reverse_fullRounds, List.foldl_map]
  rfl

/-- Settles O45: both drivers are one machine with different work, whose states are those of `nextDriver` alone. -/
theorem driverRunsTheRounds : Obligations.DriverRunsTheRounds := by
  intro k b b'
  have hnr := two_le_rounds k
  rw [encDriver_eq, decDriver_eq]
  refine ⟨?_, ?_, fun n h1 hn => ⟨?_, ?_⟩, ?_, ?_, fun n => ⟨?_, ?_⟩⟩
  · rw [iterate_driverStep_done _ hnr, encryptBlock_eq_work]
  · rw [iterate_driverStep_done _ hnr, decryptBlock_eq_work]
  · exact iterate_driverStep_round _ hnr b h1 hn
  · exact iterate_driverStep_round _ hnr b h1 hn
  · rw [iterate_driverStep_finalRound _ hnr]
  · rw [iterate_driverStep_finalRound _ hnr]
  · rw [iterate_driverStep_fst, iterate_driverStep_fst]
  · rw [iterate_driverStep_fst, iterate_driverStep_fst]

/-! ## Encryption undoes decryption (R193) -/

/-- A full encryption round undoes the full decryption round with the same round key, up to the row and byte steps that the
next one undoes (R192, R193). -/
theorem encRound_decRound (rks : Vector Column Config.rksWords) (s : Block) (r : Nat) :
    encRound rks (invSubBytes (invShiftRows (decRound rks s r))) r = invSubBytes (invShiftRows s) := by
  simp only [encRound, decRound, subBytes_invSubBytes, shiftRows_invShiftRows, mixColumns_invMixColumns,
    addRoundKey_addRoundKey]

/-- The full encryption rounds undo the full decryption rounds, last one first (R193). -/
theorem foldl_encRound_decRound (rks : Vector Column Config.rksWords) (rounds : List Nat) (s : Block) :
    rounds.foldl (encRound rks) (invSubBytes (invShiftRows (rounds.reverse.foldl (decRound rks) s))) =
      invSubBytes (invShiftRows s) := by
  induction rounds with
  | nil => rfl
  | cons r rounds ih =>
    rw [List.reverse_cons, List.foldl_append, List.foldl_cons, List.foldl_cons, List.foldl_nil, encRound_decRound, ih]

/-- EncryptBlock undoes DecryptBlock (R193). -/
@[simp] theorem encryptBlock_decryptBlock (k : KeyState) (b : Block) : encryptBlock k (decryptBlock k b) = b := by
  simp only [encryptBlock, decryptBlock, addRoundKey_addRoundKey, foldl_encRound_decRound, subBytes_invSubBytes,
    shiftRows_invShiftRows]

/-- Encrypting block by block undoes decrypting block by block (R196). -/
theorem mapBlocks_encryptBlock_decryptBlock (k : KeyState) {buffer : List Byte} (h : buffer.length % 16 = 0) :
    mapBlocks (encryptBlock k) (mapBlocks (decryptBlock k) buffer) = buffer := by
  have hid : encryptBlock k ∘ decryptBlock k = id := funext (encryptBlock_decryptBlock k)
  obtain ⟨blocks, rfl⟩ := exists_blocks h
  rw [mapBlocks_mapBlocks _ _ h, hid, mapBlocks_flatMap, List.map_id]

/-- Settles O46, for blocks and then, block by block, for buffers. -/
theorem decryptionUndoesEncryption : Obligations.DecryptionUndoesEncryption := by
  refine ⟨fun k b => ⟨decryptBlock_encryptBlock k b, encryptBlock_decryptBlock k b⟩, fun s buffer hv h => ?_,
    fun s buffer hv h => ?_⟩
  · refine ⟨_, exec_enc hv h, ?_⟩
    rw [exec_dec hv ((mapBlocks_length _ h).symm ▸ h), mapBlocks_decryptBlock_encryptBlock _ h, respond_eq]
  · refine ⟨_, exec_dec hv h, ?_⟩
    rw [exec_enc hv ((mapBlocks_length _ h).symm ▸ h), mapBlocks_encryptBlock_decryptBlock _ h, respond_eq]

end Sys2Proof.Machine
end

section

/-!
PROOFS. Errors (60_exceptions.md R220 to R226) and waiting (R234): what a part of a command decodes to, how many responses
a step gives, and what an error leaves unchanged, with the statements O7, O50, O51 and O49, each after the facts it needs.
-/

namespace Sys2Proof

/-! ## A part of a command (R48, R70) -/

/-- Bytes that lack some of a command's bytes hold no whole command: their own whole command would be read from the longer
stream too, and leave all the bytes behind it, the missing ones among them. -/
theorem decode_eq_incomplete_of_append {bytes tail rest : List Byte} {i : Instr}
    (h : decode (bytes ++ tail) = .command i rest) (hlt : rest.length < tail.length) : decode bytes = .incomplete := by
  by_contra hwhole
  obtain ⟨opc, arg, payload, behind, hlen, rfl⟩ := exists_header_of_decode hwhole
  rw [List.append_assoc, decode_header _ _ _ _ hlen] at h
  obtain ⟨-, -, -, -, rfl⟩ := decodeCommand_eq_command h
  rw [List.length_append] at hlt
  omega

end Sys2Proof

namespace Sys2Proof.Machine

/-- Settles O7: the whole stream decodes to the command with no bytes behind it, so the part issued is incomplete. -/
theorem stepWaitsForAWholeCommand : Obligations.StepWaitsForAWholeCommand := by
  intro s i tail hr hi htail hin
  have hwhole : decode (s.input ++ tail) = .command i [] := by
    rw [hin, ← List.append_nil (encode i), decode_encode_append hi]
  exact step_of_incomplete hr (decode_eq_incomplete_of_append hwhole (List.length_pos_of_ne_nil htail))

/-! ## Which response a command and a step give (R220, R225, R226) -/

/-- Settles O50: a step answers an illegal header by itself, and a command's answer is that of its first failing check. -/
theorem firstFailingCheckIsReported : Obligations.FirstFailingCheckIsReported :=
  ⟨fun _ _ _ hr hd => step_of_illegal hr hd, fun _ _ =>
    ⟨fun _ hc => exec_of_fails hc, fun hc => ⟨_, _, exec_of_passes hc, rfl⟩⟩⟩

/-- No check of a command is for `IOFailure`: it belongs to the excluded collaborator (R220). -/
theorem firstFailingCheck_ne_ioFailure (i : Instr) (s : State) : firstFailingCheck i s ≠ some .ioFailure := by
  cases i with
  | hwrite | hfinal | hread | kdf | kexp | ksread | addroundkey | enc | dec =>
    rw [firstFailingCheck]
    split_ifs <;> exact nofun
  | _ => exact nofun

/-- A command answers a next state with one response, never `IOFailure` (R220, R225). -/
theorem exec_responds (i : Instr) (s : State) :
    ∃ t a, exec i s = .next t ∧ t.output = s.output ++ [a] ∧ a ≠ .error .ioFailure := by
  cases hc : firstFailingCheck i s with
  | none => exact ⟨_, _, exec_of_passes hc, rfl, nofun⟩
  | some e =>
    refine ⟨_, _, exec_of_fails hc, rfl, fun he => firstFailingCheck_ne_ioFailure i s ?_⟩
    rw [hc, Response.error.inj he]

/-- Settles O51: the reset event and waiting give no response, a legal command and an illegal header one. -/
theorem everyStepGoesOn : Obligations.EveryStepGoesOn := by
  intro s
  obtain ⟨-, h⟩ | ⟨-, i, rest, -, h⟩ | ⟨-, e, rest, -, h⟩ | ⟨-, -, h⟩ := step_cases s
  · exact ⟨_, h, Or.inl rfl⟩
  · obtain ⟨t, a, ht, hout, ha⟩ := exec_responds i (s.withInput rest)
    exact ⟨t, h.trans ht, Or.inr ⟨a, hout, ha⟩⟩
  · exact ⟨_, h, Or.inr ⟨_, rfl, nofun⟩⟩
  · exact ⟨_, h, Or.inl rfl⟩

/-! ## An error changes nothing (R224) -/

/-- A command whose response is an error changed nothing else: one that succeeds answers without an error. -/
theorem exec_eq_respond_of_error {i : Instr} {s t : State} {e : ErrorKind} (h : exec i s = .next t)
    (hout : t.output = s.output ++ [.error e]) : t = respond (.error e) s := by
  obtain ⟨e', -, rfl⟩ | ⟨-, rfl⟩ := exec_cases h
  · rw [respond_output_inj rfl hout]
  · cases respond_output_inj (s := effectOf i s) rfl hout

/-- A step whose response is an error changes no register: the reset event, which changes them, gives no response. -/
theorem step_keeps_registers_of_error {s t : State} {e : ErrorKind} (h : step s = .next t)
    (hout : t.output = s.output ++ [.error e]) : t.hash = s.hash ∧ t.keys = s.keys := by
  obtain ⟨-, hs⟩ | ⟨-, i, rest, -, hs⟩ | ⟨-, d, rest, -, hs⟩ | ⟨-, -, hs⟩ := step_cases s
  · cases hs.symm.trans h
    exact absurd hout (by simp)
  · obtain rfl := exec_eq_respond_of_error (s := s.withInput rest) (hs.symm.trans h) hout
    exact ⟨rfl, rfl⟩
  · cases hs.symm.trans h
    exact ⟨rfl, rfl⟩
  · cases hs.symm.trans h
    exact ⟨rfl, rfl⟩

/-- An error's response is its code in `STATUS` and `OUTLEN = 0`, with no bytes behind the header (R72, R224). -/
theorem error_bytes (e : ErrorKind) : (Response.error e).bytes = [e.code, 0, 0, 0] := by
  rw [Response.bytes, Response.header, be32_header]
  simp [Response.status, Response.data]

/-- Settles O49, for a command, for a step and for the response's bytes with each code of R221. -/
theorem errorsChangeNothing : Obligations.ErrorsChangeNothing :=
  ⟨fun _ _ _ _ h hout => exec_eq_respond_of_error h hout, fun _ _ _ h hout => step_keeps_registers_of_error h hout,
    error_bytes _, error_bytes _, error_bytes _, error_bytes _, error_bytes _, error_bytes _, error_bytes _,
    error_bytes _, error_bytes _⟩

end Sys2Proof.Machine
end

section

/-!
PROOFS. Reset (70_reset_and_hazards.md R250 to R252): the reset event, which commands refuse after it, and runs from states
that agree on all that is defined, with the statements O11 and O13.
-/

namespace Sys2Proof.Machine

/-- Settles O11: the reset event is `takeReset`, and its fields are the values asked for. -/
theorem resetEventTakesTheResetValues : Obligations.ResetEventTakesTheResetValues := fun s hr =>
  ⟨takeReset s, step_of_reset hr, rfl, rfl, takeReset_output s, takeReset_input s, takeReset_resetIn s⟩

/-- A command that would use the schedule fails a check when `RKS_VALID = 0`: `NoSchedule`, or a check before it (R226). -/
theorem exists_failingCheck_of_invalid {i : Instr} {s : State} (hv : s.keys.valid = false)
    (hi : i.op ∈ [.ksread, .addroundkey, .enc, .dec]) : ∃ e, firstFailingCheck i s = some e := by
  rw [← Option.ne_none_iff_exists']
  intro hc
  have hvalid : s.keys.valid = true := by
    cases i with
    | ksread => exact firstFailingCheck_ksread_eq_none.mp hc
    | addroundkey arg block => exact (firstFailingCheck_addroundkey_eq_none.mp hc).1
    | enc buffer => exact (firstFailingCheck_enc_eq_none.mp hc).2
    | dec buffer => exact (firstFailingCheck_dec_eq_none.mp hc).2
    | _ => simp [Instr.op] at hi
  exact absurd (hv.symm.trans hvalid) (by decide)

/-- HREAD of an idle hash engine fails its check (R111). -/
theorem firstFailingCheck_hread_of_idle {s : State} (hp : s.hash.phase = .idle) :
    firstFailingCheck .hread s = some .protocolError := by simp [firstFailingCheck, hp]

/-- A run that begins with a step goes on from the state after it. -/
theorem run_succ_of_step {s t : State} (h : step s = .next t) (n : Nat) : core.run (n + 1) s = core.run n t := by
  have h' : core.step s = .next t := h
  simp only [Host.Core.run, h']

/-- Agreement on all that is defined holds along whole runs, since every step keeps it. -/
theorem run_agree {s t : State} (h : s.Agree t) (n : Nat) :
    ∃ s' t', core.run n s = .next s' ∧ core.run n t = .next t' ∧ s'.Agree t' := by
  induction n generalizing s t with
  | zero => exact ⟨s, t, rfl, rfl, h⟩
  | succ n ih =>
    obtain ⟨s₁, t₁, hs, ht, h₁⟩ := undefinedBitsStayUnobserved s t h
    rw [run_succ_of_step hs, run_succ_of_step ht]
    exact ih h₁

/-- Settles O13: the commands that would read the schedule or the digest fail their checks, and two states after reset
agree on all that is defined, so that runs from them give the same responses. -/
theorem resetLeavesNothingReadable : Obligations.ResetLeavesNothingReadable := by
  refine ⟨fun s i hv hi => ?_, fun s hp => exec_of_fails (firstFailingCheck_hread_of_idle hp), ?_⟩
  · obtain ⟨e, he⟩ := exists_failingCheck_of_invalid hv hi
    exact ⟨e, exec_of_fails he⟩
  · intro s t hps hvs hpt hvt hin hout hr n
    have hagree : s.Agree t := ⟨hin, hout, hr, HashState.agree_of_idle hps hpt, KeyState.agree_of_invalid hvs hvt⟩
    obtain ⟨s', t', hs, ht, -, hout', -⟩ := run_agree hagree n
    exact ⟨s', t', hs, ht, hout'⟩

end Sys2Proof.Machine
end
